-- ==== Sys2Proof/Word.lean ====
section
/-!
DEFINITION. The carrier of every value on a port of the block.

The register width N is a build parameter, one of 8, 16, 32, 64, 128 (00_scope.md R4), and so is the scalar width
OUT (R6). A value of N or of OUT bits is carried in one type of the greatest admitted width, its bits above N (or
OUT) zero; `Config.n` and `Config.out` say how many bits count (log 3).
-/

namespace Sys2Proof

/-- A value on a port: N bits of a Register Value (R17, R18) or OUT bits of a scalar (R18), zero above. -/
abbrev Word := BitVec 128

/-- The request word `REQ` of R37: 2N + 4 bits, at most 260, zero above. -/
abbrev ReqWord := BitVec 260

end Sys2Proof
end

