-- ==== Sys2Proof/Config.lean ====
section
/-!
DEFINITION. What is fixed when the block is built: its parameters and their legality (00_scope.md R4 to R10), the
configurations that the spec names, and the values that the spec leaves open, as constants without a body.
-/

namespace Sys2Proof

/-- The parameters of one built block (R4 to R9). -/
structure Params where
  /-- N, the register width in bits (R4). -/
  n : Nat
  /-- W, the lane width in bits (R5). -/
  w : Nat
  /-- OUT, the width in bits of the scalar result (R6). -/
  out : Nat
  /-- HAS_DECODE, whether the base-10 decoder is present (R7). -/
  hasDecode : Bool
  /-- LATENCY, in clock cycles (R9). -/
  latency : Nat
  deriving DecidableEq, Repr

/-- The widths that N and OUT may take (R4, R6). -/
def admittedWidths : List Nat := [8, 16, 32, 64, 128]

/-- R4, R5, R6 and the static constraints S1 to S3 of R8. (S4 follows from them.) -/
def Params.legal (p : Params) : Bool :=
  admittedWidths.contains p.n && admittedWidths.contains p.out &&
  decide (1 ≤ p.w) && decide (p.n % p.w = 0) &&
  (!p.hasDecode || (decide (4 ≤ p.w) && decide (10 ^ (p.n / p.w) ≤ 2 ^ p.out)))

/-- A parameter set together with the proof that it is legal: at an illegal set there is no block (R10, R78), so
there is no `Config`. -/
structure Config extends Params where
  /-- The proof of R8 that R10 asks for. -/
  isLegal : toParams.legal = true
  deriving DecidableEq, Repr

/-- L, the lane count, N / W (R5). -/
def Config.lanes (c : Config) : Nat := c.n / c.w

/-- CFG-A, the configuration that the source names (R12), with LATENCY 0 (log 2). -/
def cfgA : Config where
  n := 128
  w := 8
  out := 64
  hasDecode := true
  latency := 0
  isLegal := by decide

/-- `DecodeOutOfDomain` (R73): what DECODE answers for an operand with a lane above 9. A function of the geometry
and the operand, of which nothing else is known (log 8). -/
opaque Config.decodeOutOfDomain : (n w out : Nat) → (a : Word) → Word

/-- What stands on `rsp_r` in the k-th cycle whose port data is unspecified (R22, R89, log 6). -/
opaque Config.idleR : (k : Nat) → Word

/-- What stands on `rsp_s` in the k-th cycle whose port data is unspecified (R22, R89, log 6). -/
opaque Config.idleS : (k : Nat) → Word

/-- What stands on `rsp_none` in the k-th cycle whose port data is unspecified (R22, R89, log 6). -/
opaque Config.idleNone : (k : Nat) → Bool

/-- What stands on `rsp_valid` in the k-th cycle whose port data is unspecified, where that cycle comes before the
first reset of a block with LATENCY > 0 (R89, log 10). -/
opaque Config.unresetValid : (k : Nat) → Bool

/-- Whether slot k of the in-flight storage holds a response at power-on (R89, log 10). -/
opaque Config.powerOnValid : (k : Nat) → Bool

/-- The lane result in slot k of the in-flight storage at power-on (R89, log 10). -/
opaque Config.powerOnR : (k : Nat) → Word

/-- The scalar result in slot k of the in-flight storage at power-on (R89, log 10). -/
opaque Config.powerOnS : (k : Nat) → Word

/-- The "no match" bit in slot k of the in-flight storage at power-on (R89, log 10). -/
opaque Config.powerOnNone : (k : Nat) → Bool

end Sys2Proof
end

