-- ==== Sys2Proof/Syntax.lean ====
section
/-!
DEFINITION. The operations, the instructions and the request (30_encoding.md R37 to R41).
-/

namespace Sys2Proof

/-- The ten mnemonics of the opcode map (R40). -/
inductive Mnemonic where
  | BCAST | MSBS | ADD | SUB | CMPEQ | CMPLT | FFS | FLS | POPC | DECODE
  deriving DecidableEq, Repr

/-- The four operand classes (R38). -/
inductive OperandClass where
  /-- Reads nothing. -/
  | N0
  /-- Reads `a[W-1:0]` as the value V. -/
  | V1
  /-- Reads `a[N-1:0]`. -/
  | A1
  /-- Reads `a[N-1:0]` and `b[N-1:0]`. -/
  | A2
  deriving DecidableEq, Repr

/-- One request with the operand bits that its operation reads, and no others (R21, R38): one constructor for each
row of the opcode table. -/
inductive Instr where
  /-- Broadcast the lane value `v` (R48). -/
  | bcast (v : Word)
  /-- The marker mask (R50). -/
  | msbs
  /-- Lane-wise addition (R56). -/
  | add (a b : Word)
  /-- Lane-wise subtraction, `a` the minuend (R58). -/
  | sub (a b : Word)
  /-- Lane-wise equality (R61). -/
  | cmpeq (a b : Word)
  /-- Lane-wise unsigned less-than, a < b (R62). -/
  | cmplt (a b : Word)
  /-- First set lane of a hit mask (R64). -/
  | ffs (a : Word)
  /-- Last set lane of a hit mask (R65). -/
  | fls (a : Word)
  /-- Number of set lanes of a hit mask (R66). -/
  | popc (a : Word)
  /-- Decimal value of the digit lanes (R72). -/
  | decode (a : Word)
  deriving DecidableEq, Repr

/-- The operation of an instruction. -/
def Instr.mnemonic : Instr → Mnemonic
  | .bcast _ => .BCAST
  | .msbs => .MSBS
  | .add _ _ => .ADD
  | .sub _ _ => .SUB
  | .cmpeq _ _ => .CMPEQ
  | .cmplt _ _ => .CMPLT
  | .ffs _ => .FFS
  | .fls _ => .FLS
  | .popc _ => .POPC
  | .decode _ => .DECODE

/-- The three fields of a request as they travel on the ports `req_op`, `req_a`, `req_b` (R17, R37). Of `a` and `b`
only the low N bits exist. -/
structure Request where
  op : BitVec 4
  a : Word
  b : Word
  deriving DecidableEq, Repr

/-- Why bits are no instruction of the block. -/
inductive DecodeError where
  /-- The opcode is reserved: 0xA to 0xF, or 0x9 when HAS_DECODE is false (R45). -/
  | reservedOpcode (op : BitVec 4)
  /-- The word has a bit set above the 2N + 4 bits of `REQ` (R37), so it is no request word. -/
  | notARequest
  deriving DecidableEq, Repr

end Sys2Proof
end

