-- ==== Sys2Proof/WellFormed.lean ====
section
/-!
DEFINITION. Which instructions exist on a block: operands of the width their class reads (30_encoding.md R38, R46),
and DECODE only where the decoder is built in (R40).
-/

namespace Sys2Proof

/-- The value has no bit at position `k` or above. -/
def fits (k : Nat) (x : Word) : Bool := decide (x.toNat < 2 ^ k)

/-- BCAST's value is below 2^W (R39, R46), every Register Value has N bits (R17), and DECODE needs HAS_DECODE (R40,
R45). -/
def Instr.wellFormed (c : Config) : Instr → Bool
  | .bcast v => fits c.w v
  | .msbs => true
  | .add a b => fits c.n a && fits c.n b
  | .sub a b => fits c.n a && fits c.n b
  | .cmpeq a b => fits c.n a && fits c.n b
  | .cmplt a b => fits c.n a && fits c.n b
  | .ffs a => fits c.n a
  | .fls a => fits c.n a
  | .popc a => fits c.n a
  | .decode a => c.hasDecode && fits c.n a

end Sys2Proof
end

