-- ==== Sys2Proof/Decode.lean ====
section
/-!
DEFINITION. From the bits of a request to an instruction, and back (30_encoding.md R37 to R45).

`decode` reads a request as it stands on the ports; `decodeReq` reads the word `REQ`. Both are total and reject by
name. `encode` and `encodeReq` go back. `decodeTableWord` reads a word of the opcode table's own numbering.
-/

namespace Sys2Proof

/-- The low `k` bits of a value, zero above: the slice X[k-1:0] (00_scope.md section 4). -/
def lowBits (k : Nat) (x : Word) : Word := BitVec.ofNat 128 (x.toNat % 2 ^ k)

/-- The opcode of each operation (R40). -/
def Mnemonic.opcode : Mnemonic → BitVec 4
  | .BCAST => 0x0#4
  | .MSBS => 0x1#4
  | .ADD => 0x2#4
  | .SUB => 0x3#4
  | .CMPEQ => 0x4#4
  | .CMPLT => 0x5#4
  | .FFS => 0x6#4
  | .FLS => 0x7#4
  | .POPC => 0x8#4
  | .DECODE => 0x9#4

/-- The operation that a request selects, from `op` alone (R40, R41); the reserved opcodes select none (R45). -/
def selectOp (c : Config) (op : BitVec 4) : Except DecodeError Mnemonic :=
  match op.toNat with
  | 0x0 => .ok .BCAST
  | 0x1 => .ok .MSBS
  | 0x2 => .ok .ADD
  | 0x3 => .ok .SUB
  | 0x4 => .ok .CMPEQ
  | 0x5 => .ok .CMPLT
  | 0x6 => .ok .FFS
  | 0x7 => .ok .FLS
  | 0x8 => .ok .POPC
  | 0x9 => if c.hasDecode then .ok .DECODE else .error (.reservedOpcode op)
  | _ => .error (.reservedOpcode op)

/-- The operand bits that each operation reads, by its class (R38); the rest is ignored (R21). -/
def readOperands (c : Config) (m : Mnemonic) (q : Request) : Instr :=
  match m with
  | .BCAST => .bcast (lowBits c.w q.a)
  | .MSBS => .msbs
  | .ADD => .add (lowBits c.n q.a) (lowBits c.n q.b)
  | .SUB => .sub (lowBits c.n q.a) (lowBits c.n q.b)
  | .CMPEQ => .cmpeq (lowBits c.n q.a) (lowBits c.n q.b)
  | .CMPLT => .cmplt (lowBits c.n q.a) (lowBits c.n q.b)
  | .FFS => .ffs (lowBits c.n q.a)
  | .FLS => .fls (lowBits c.n q.a)
  | .POPC => .popc (lowBits c.n q.a)
  | .DECODE => .decode (lowBits c.n q.a)

/-- The instruction that a request on the ports stands for (R40, R41). -/
def decode (c : Config) (q : Request) : Except DecodeError Instr :=
  match selectOp c q.op with
  | .ok m => .ok (readOperands c m q)
  | .error e => .error e

/-- The fields of a request word, `REQ = {op, b, a}` (R37); a word with a bit above them is no request. -/
def unpackReq (c : Config) (w : ReqWord) : Except DecodeError Request :=
  if w.toNat < 2 ^ (2 * c.n + 4) then
    .ok { op := BitVec.ofNat 4 (w.toNat / 2 ^ (2 * c.n))
          a := BitVec.ofNat 128 (w.toNat % 2 ^ c.n)
          b := BitVec.ofNat 128 (w.toNat / 2 ^ c.n % 2 ^ c.n) }
  else .error .notARequest

/-- The instruction that a request word stands for. -/
def decodeReq (c : Config) (w : ReqWord) : Except DecodeError Instr :=
  match unpackReq c w with
  | .ok q => decode c q
  | .error e => .error e

/-- The request of an instruction; operand bits that the operation does not read are written as zero (R46). -/
def encode : Instr → Request
  | .bcast v => ⟨Mnemonic.BCAST.opcode, v, 0⟩
  | .msbs => ⟨Mnemonic.MSBS.opcode, 0, 0⟩
  | .add a b => ⟨Mnemonic.ADD.opcode, a, b⟩
  | .sub a b => ⟨Mnemonic.SUB.opcode, a, b⟩
  | .cmpeq a b => ⟨Mnemonic.CMPEQ.opcode, a, b⟩
  | .cmplt a b => ⟨Mnemonic.CMPLT.opcode, a, b⟩
  | .ffs a => ⟨Mnemonic.FFS.opcode, a, 0⟩
  | .fls a => ⟨Mnemonic.FLS.opcode, a, 0⟩
  | .popc a => ⟨Mnemonic.POPC.opcode, a, 0⟩
  | .decode a => ⟨Mnemonic.DECODE.opcode, a, 0⟩

/-- The word `REQ = {op, b, a}` of a request (R37). -/
def packReq (c : Config) (q : Request) : ReqWord :=
  BitVec.ofNat 260
    (q.op.toNat * 2 ^ (2 * c.n) + q.b.toNat % 2 ^ c.n * 2 ^ c.n + q.a.toNat % 2 ^ c.n)

/-- The request word of a well-formed instruction. -/
def encodeReq (c : Config) (i : Instr) : ReqWord := packReq c (encode i)

/-- The request of a word in the numbering of spec/opcode_table.json, whose rows give the 4-bit `op` field alone, as
bits 3:0 (R37, log 11). The operands are zero. -/
def tableRequest (nbits w : Nat) : Request := ⟨BitVec.ofNat 4 (w % 2 ^ nbits), 0, 0⟩

/-- The instruction that the decoder of the reference configuration reads from a word of the opcode table, presented
on the ports. -/
def decodeTableWord (nbits w : Nat) : Option Instr :=
  (decode cfgA (tableRequest nbits w)).toOption

end Sys2Proof
end

