-- ==== Sys2Proof/Machine/Operands.lean ====
section
/-!
DEFINITION. How the block reads and builds lane values (00_scope.md section 4, 30_encoding.md R38; log 13), the constants
built into it (40_mask_broadcast.md R51), and how a host builds an operand from bytes (20_memory.md R30).
-/

namespace Sys2Proof.Machine

open Sys2Proof

/-- `lane(X, i)`: bits (i+1)·W − 1 down to i·W of X, for lanes of `w` bits. -/
def laneOf (w : Nat) (x : Word) (i : Nat) : Nat := x.toNat / 2 ^ (i * w) % 2 ^ w

/-- `lane(X, i)` on a block of configuration `c`. -/
def lane (c : Config) (x : Word) (i : Nat) : Nat := laneOf c.w x i

/-- `top(i)`: the position of lane i's designated bit (R60). -/
def top (c : Config) (i : Nat) : Nat := i * c.w + c.w - 1

/-- Whether lane i's designated bit is set in X. -/
def hit (c : Config) (x : Word) (i : Nat) : Bool := x.toNat.testBit (top c i)

/-- The sum of f(i) · 2^(i·w) over the first `k` lanes. -/
def packNat (w : Nat) (f : Nat → Nat) : Nat → Nat
  | 0 => 0
  | k + 1 => packNat w f k + f k * 2 ^ (k * w)

/-- `pack(f)`: the value whose lane i is f(i), for f(i) < 2^W. -/
def pack (c : Config) (f : Nat → Nat) : Word := BitVec.ofNat 128 (packNat c.w f c.lanes)

/-- `M`, the marker mask: the designated bit of every lane (R50, R51). -/
def marker (c : Config) : Word := pack c fun _ => 2 ^ (c.w - 1)

/-- `ONES`: the lowest bit of every lane (R48). -/
def onesMask (c : Config) : Word := pack c fun _ => 1

/-- How each operation reads its operands (R38). -/
def operandClass : Mnemonic → OperandClass
  | .BCAST => .V1
  | .MSBS => .N0
  | .ADD => .A2
  | .SUB => .A2
  | .CMPEQ => .A2
  | .CMPLT => .A2
  | .FFS => .A1
  | .FLS => .A1
  | .POPC => .A1
  | .DECODE => .A1

/-- The sum of byte j times 2^(8·j). -/
def littleEndian : List (BitVec 8) → Nat
  | [] => 0
  | byte :: rest => byte.toNat + 2 ^ 8 * littleEndian rest

/-- R30, on the host's side: the operand built from the N/8 bytes at rising addresses; `none` for another number of
bytes, to which R30 gives no operand. -/
def hostOperand (c : Config) (bytes : List (BitVec 8)) : Option Word :=
  if bytes.length = c.n / 8 then some (BitVec.ofNat 128 (littleEndian bytes)) else none

end Sys2Proof.Machine
end

