-- ==== Sys2Proof/Machine/State.lean ====
section
/-!
DEFINITION. The state of the block (10_state.md), as plain data, and the state right after reset.
-/

namespace Sys2Proof.Machine

open Sys2Proof

/-- One response (R18): the data fields of the response port. -/
structure Response where
  /-- `rsp.r`, the lane result, N bits. -/
  r : Word
  /-- `rsp.s`, the scalar result, OUT bits. -/
  s : Word
  /-- `rsp.none`, 1 when FFS or FLS found no lane. -/
  noMatch : Bool
  deriving DecidableEq, Repr

/-- What the host drives in one clock cycle (R17, R23). -/
structure PortCycle where
  /-- `rst`, the synchronous active-high reset (R87). -/
  rst : Bool
  /-- `req_valid`. -/
  valid : Bool
  /-- `req_op`, `req_a`, `req_b`. -/
  req : Request
  deriving DecidableEq, Repr

/-- The block between two clock edges, with what its ports showed in the last cycle and what the host will drive in
the next ones. -/
structure State where
  /-- The build parameters (R4 to R9): no step changes them (R27, log 1). -/
  cfg : Config
  /-- What the host presents at the coming edges, soonest first; after the last entry it presents nothing (log 4). -/
  inputs : List PortCycle
  /-- The not-yet-delivered responses of the last LATENCY cycles, oldest first; a cycle that accepted no request
  holds an empty slot (R24). -/
  pipe : List (Option Response)
  /-- `rsp_valid` in the last cycle (R18). -/
  rspValid : Bool
  /-- `rsp_r`, `rsp_s`, `rsp_none` in the last cycle (R18); unspecified when `rspValid` is false (R22, log 6). -/
  rsp : Response
  /-- Whether `rst` has been 1 in some cycle since power-on (R89). -/
  resetSeen : Bool
  /-- The model's own counter: how many free values the data ports have shown (log 6, log 7). -/
  freeTick : Nat
  deriving DecidableEq, Repr

/-- Why the machine stops with a fault. Never: no rule of the block raises anything (R77, R86), so there is no
constructor. -/
inductive Fault where
  deriving DecidableEq, Repr

/-- Why a step gives an instruction no meaning. -/
inductive Refusal where
  /-- An instruction of the table without a meaning in this model; raised by no arm. Safe. -/
  | notModelled (mnemonic : String)
  /-- A request with a reserved opcode (R45, R86): raised by the step for 0xA to 0xF, and by the step and the DECODE
  meaning for 0x9 on a block without a decoder. Safe: nothing is claimed about a value that a later revision may
  reassign (log 5). -/
  | reservedOpcode (op : BitVec 4)
  deriving DecidableEq, Repr

/-- The block of configuration `c` right after reset: nothing in flight and `rsp_valid` = 0 (R27, R88). The data
ports are unspecified then; the values here are this model's (log 6). -/
def State.resetOf (c : Config) : State where
  cfg := c
  inputs := []
  pipe := List.replicate c.latency none
  rspValid := false
  rsp := { r := 0, s := 0, noMatch := false }
  resetSeen := true
  freeTick := 0

/-- The reference configuration right after reset (R12, R27, log 2). -/
def State.reset : State := State.resetOf cfgA

end Sys2Proof.Machine
end

