-- ==== Sys2Proof/Machine/Flags.lean ====
section
/-!
DEFINITION. The one-bit results. The block has no status flags (10_state.md R15); what a lane predicate or a failed
search reports is the designated bits of a hit mask (43_lane_compare.md R60) and the response bit `rsp.none`
(10_state.md R18, 44_reduce.md R64).
-/

namespace Sys2Proof.Machine

open Sys2Proof

/-- The lane of a hit mask: its designated bit set iff the predicate held, all other bits zero (R60). -/
def hitLane (c : Config) (held : Bool) : Nat := if held then 2 ^ (c.w - 1) else 0

/-- `HitMask(p, A, B)` (R60). -/
def hitMask (c : Config) (p : Nat → Nat → Bool) (a b : Word) : Word :=
  pack c fun i => hitLane c (p (lane c a i) (lane c b i))

/-- What a reduction keeps of its operand: the designated bits (R67). -/
def maskedHits (c : Config) (x : Word) : Word := x &&& marker c

/-- `rsp.none` of FFS and FLS: no designated bit is set (R64, R65). -/
def noLaneHit (c : Config) (x : Word) : Bool := maskedHits c x == 0

end Sys2Proof.Machine
end

