-- ==== Sys2Proof/Machine/Ops.lean ====
section
/-!
DEFINITION. The operations that the meanings and the step share: building a response (10_state.md R18, R20), counting
bits (00_scope.md section 4), and one clock cycle of the in-flight storage (R24, 70_reset_and_hazards.md R87 to R94).
The block has no exception to take or return from (60_exceptions.md R77, R81, R82), so there is no such operation.
-/

namespace Sys2Proof.Machine

open Sys2Proof

/-! ### Bit counts (00_scope.md section 4) -/

/-- `popcount` of the low `n` bits of x. -/
def popcount : (n : Nat) → (x : Nat) → Nat
  | 0, _ => 0
  | n + 1, x => popcount n x + (x.testBit n).toNat

/-- `ctz` of an n-bit x: the zero bits below the lowest 1; n if there is none, where no rule uses it. -/
def ctz : (n : Nat) → (x : Nat) → Nat
  | 0, _ => 0
  | n + 1, x => if x.testBit 0 then 0 else 1 + ctz n (x / 2)

/-- `clz` of an n-bit x: the zero bits above the highest 1; n if there is none, where no rule uses it. -/
def clz : (n : Nat) → (x : Nat) → Nat
  | 0, _ => 0
  | n + 1, x => if x.testBit n then 0 else 1 + clz n x

/-! ### Responses -/

/-- The response of a lane operation: `rsp.s` = 0, `rsp.none` = 0 (R20). -/
def laneResponse (r : Word) : Response := { r := r, s := 0, noMatch := false }

/-- The response of a scalar operation: an OUT-bit value, `rsp.r` = 0, `rsp.none` = 0 (R18, R20). -/
def scalarResponse (c : Config) (v : Nat) : Response :=
  { r := 0, s := lowBits c.out (BitVec.ofNat 128 v), noMatch := false }

/-- "No match": `rsp.none` = 1, `rsp.s` = 0, `rsp.r` = 0 (R64, R65). -/
def noMatchResponse : Response := { r := 0, s := 0, noMatch := true }

/-- What the port carries in answer to a reserved opcode (R45). -/
def reservedResponse : Response := { r := 0, s := 0, noMatch := false }

/-! ### One clock cycle -/

/-- A host that presents no request and no reset. -/
def PortCycle.quiet : PortCycle := { rst := false, valid := false, req := ⟨0, 0, 0⟩ }

/-- A host that presents one request. -/
def PortCycle.present (q : Request) : PortCycle := { rst := false, valid := true, req := q }

/-- What the ports carry at the coming edge (R17, log 4). -/
def State.nextCycle (s : State) : PortCycle := s.inputs.headD PortCycle.quiet

/-- The same block once that edge's port values are used up. -/
def State.consumed (s : State) : State := { s with inputs := s.inputs.tail }

/-- What the ports show can be trusted: there has been a reset since power-on, or LATENCY = 0 and nothing is stored
(R89). -/
def State.trusted (s : State) : Bool := s.resetSeen || decide (s.cfg.latency = 0)

/-- The data ports where they are unspecified: free values of the ports' widths (R22, R89, log 6). -/
def State.idleData (s : State) : Response :=
  { r := lowBits s.cfg.n (Config.idleR s.freeTick)
    s := lowBits s.cfg.out (Config.idleS s.freeTick)
    noMatch := Config.idleNone s.freeTick }

/-- The response port in a cycle that carries the response `q` (R18). -/
def State.showResponse (s : State) (q : Response) : State := { s with rspValid := true, rsp := q }

/-- The response port in a cycle that carries no response: `rsp_valid` = 0, data unspecified (R18, R22). -/
def State.showNothing (s : State) : State :=
  { s with rspValid := false, rsp := s.idleData, freeTick := s.freeTick + 1 }

/-- The response port in a cycle before the first reset of a block with LATENCY > 0: every output is unknown, so
`rsp_valid` may be 1 with meaningless data (R89, log 10). -/
def State.showUnknown (s : State) : State :=
  { s with rspValid := Config.unresetValid s.freeTick, rsp := s.idleData, freeTick := s.freeTick + 1 }

/-- The response port for one cycle, `slot` being what the in-flight storage delivers (R18, R22, R89). -/
def State.drive (s : State) (slot : Option Response) : State :=
  if s.trusted then
    match slot with
    | some q => s.showResponse q
    | none => s.showNothing
  else s.showUnknown

/-- One cycle without reset: this cycle's response, if it accepted a request, enters the in-flight storage, and the
oldest slot, LATENCY cycles old, is delivered (R24, R93). With LATENCY = 0 they are the same slot. -/
def State.clock (s : State) (arrival : Option Response) : State :=
  State.drive { s with pipe := (s.pipe ++ [arrival]).tail } ((s.pipe ++ [arrival]).headD arrival)

/-- A cycle that accepts a request whose response is `q` (R16). -/
def State.accept (s : State) (q : Response) : State := s.clock (some q)

/-- A cycle without a request. -/
def State.idle (s : State) : State := s.clock none

/-- A cycle with `rst` = 1: every response in flight is discarded, no request is accepted and `rsp_valid` is 0
(R87, R88, log 9). From then on the ports can be trusted (R89). -/
def State.flush (s : State) : State :=
  State.showNothing { s with pipe := List.replicate s.cfg.latency none, resetSeen := true }

/-- Slot k of the in-flight storage at power-on: unknown (R89, log 10). -/
def powerOnSlot (c : Config) (k : Nat) : Option Response :=
  if Config.powerOnValid k then
    some { r := lowBits c.n (Config.powerOnR k)
           s := lowBits c.out (Config.powerOnS k)
           noMatch := Config.powerOnNone k }
  else none

/-- The in-flight storage at power-on, no reset seen, before anything stands on the ports. -/
def powerOnStorage (c : Config) : State where
  cfg := c
  inputs := []
  pipe := (List.range c.latency).map (powerOnSlot c)
  rspValid := false
  rsp := { r := 0, s := 0, noMatch := false }
  resetSeen := false
  freeTick := 0

/-- The block at power-on, before the first reset (R89, log 10): unknown slots in flight and, with LATENCY > 0,
unknown outputs. -/
def State.powerOn (c : Config) : State := (powerOnStorage c).drive none

end Sys2Proof.Machine
end

