-- ==== Sys2Proof/Machine/Arith.lean ====
section
/-!
DEFINITION. Lane-wise addition and subtraction with carry isolation: ADD and SUB (42_lane_arith.md R56 to R59).
-/

namespace Sys2Proof.Machine

open Sys2Proof

/-- (x + y) mod 2^W (R56). -/
def laneSum (w x y : Nat) : Nat := (x + y) % 2 ^ w

/-- (x − y) mod 2^W, a value in 0 .. 2^W − 1 (R58). -/
def laneDifference (w x y : Nat) : Nat := (((x : Int) - (y : Int)) % ((2 ^ w : Nat) : Int)).toNat

/-- Lane-wise sum (R56). -/
def addLanes (c : Config) (a b : Word) : Word :=
  pack c fun i => laneSum c.w (lane c a i) (lane c b i)

/-- Lane-wise difference, `a` the minuend (R58). -/
def subLanes (c : Config) (a b : Word) : Word :=
  pack c fun i => laneDifference c.w (lane c a i) (lane c b i)

/-- The response of ADD (R56). -/
def respAdd (c : Config) (a b : Word) : Response := laneResponse (addLanes c a b)

/-- The response of SUB (R58). -/
def respSub (c : Config) (a b : Word) : Response := laneResponse (subLanes c a b)

/-- ADD (R56). -/
def execAdd (a b : Word) (s : State) : Host.Outcome State Fault Refusal :=
  .next (s.accept (respAdd s.cfg a b))

/-- SUB (R58). -/
def execSub (a b : Word) (s : State) : Host.Outcome State Fault Refusal :=
  .next (s.accept (respSub s.cfg a b))

/-- R57's whole-register addition, on values of any one width, with `m` the marker mask. -/
def swarAdd {n : Nat} (m a b : BitVec n) : BitVec n :=
  ((a &&& ~~~m) + (b &&& ~~~m)) ^^^ ((a ^^^ b) &&& m)

/-- R59's whole-register subtraction, on values of any one width, with `m` the marker mask. -/
def swarSub {n : Nat} (m a b : BitVec n) : BitVec n :=
  ((a ||| m) - (b &&& ~~~m)) ^^^ ((a ^^^ ~~~b) &&& m)

/-- R57 on the block's N-bit values. -/
def addByGuardBits (c : Config) (a b : Word) : Word :=
  (swarAdd ((marker c).setWidth c.n) (a.setWidth c.n) (b.setWidth c.n)).setWidth 128

/-- R59 on the block's N-bit values. -/
def subByGuardBits (c : Config) (a b : Word) : Word :=
  (swarSub ((marker c).setWidth c.n) (a.setWidth c.n) (b.setWidth c.n)).setWidth 128

end Sys2Proof.Machine
end

