-- ==== Sys2Proof/Machine/Compare.lean ====
section
/-!
DEFINITION. Lane-wise comparison producing a hit mask: CMPEQ and CMPLT (43_lane_compare.md R60 to R63).
-/

namespace Sys2Proof.Machine

open Sys2Proof

/-- The predicate of CMPEQ (R61). -/
def laneEqual (x y : Nat) : Bool := decide (x = y)

/-- The predicate of CMPLT, on unsigned integers (R62). -/
def laneLess (x y : Nat) : Bool := decide (x < y)

/-- The response of CMPEQ (R61). -/
def respCmpeq (c : Config) (a b : Word) : Response := laneResponse (hitMask c laneEqual a b)

/-- The response of CMPLT (R62). -/
def respCmplt (c : Config) (a b : Word) : Response := laneResponse (hitMask c laneLess a b)

/-- CMPEQ (R61). -/
def execCmpeq (a b : Word) (s : State) : Host.Outcome State Fault Refusal :=
  .next (s.accept (respCmpeq s.cfg a b))

/-- CMPLT (R62). -/
def execCmplt (a b : Word) (s : State) : Host.Outcome State Fault Refusal :=
  .next (s.accept (respCmplt s.cfg a b))

/-- R61's reference computation, with `m` the marker mask. -/
def swarEqual {n : Nat} (m a b : BitVec n) : BitVec n :=
  ~~~((((a ^^^ b) &&& ~~~m) + ~~~m) ||| (a ^^^ b)) &&& m

/-- R62's reference computation, with `m` the marker mask and `d` the lane-wise difference. -/
def swarLess {n : Nat} (m a b d : BitVec n) : BitVec n :=
  ((~~~a &&& b) ||| (~~~(a ^^^ b) &&& d)) &&& m

/-- R61's reference computation on the block's N-bit values. -/
def equalByXor (c : Config) (a b : Word) : Word :=
  (swarEqual ((marker c).setWidth c.n) (a.setWidth c.n) (b.setWidth c.n)).setWidth 128

/-- R62's reference computation on the block's N-bit values. -/
def lessByBorrow (c : Config) (a b : Word) : Word :=
  (swarLess ((marker c).setWidth c.n) (a.setWidth c.n) (b.setWidth c.n)
    ((subLanes c a b).setWidth c.n)).setWidth 128

end Sys2Proof.Machine
end

