-- ==== Sys2Proof/Machine/LogHelpers.lean ====
section
/-!
DEFINITION. The base-2 logarithm helpers (41_log_helpers.md R52 to R55). They size the reference constructions when
the block is built and have no opcode (R42). At 0 they have no value (R54): each takes a proof of 1 ≤ x.
-/

namespace Sys2Proof.Machine

open Sys2Proof

/-- The position of the highest set bit among the low `k` bits of x, 0 if there is none. -/
def highestBit (x : Nat) : Nat → Nat
  | 0 => 0
  | k + 1 => if x.testBit k then k else highestBit x k

/-- floorLog2 (R52), from the position of the highest set bit; x is below 2^x, so x bits are enough. -/
def floorLog2 (x : Nat) (_positive : 1 ≤ x) : Nat := highestBit x x

/-- x is an exact power of two: x & (x − 1) = 0 (R53). -/
def exactPowerOfTwo (x : Nat) : Bool := x &&& (x - 1) == 0

/-- ceilLog2 (R53). -/
def ceilLog2 (x : Nat) (positive : 1 ≤ x) : Nat :=
  if exactPowerOfTwo x then floorLog2 x positive else floorLog2 x positive + 1

/-- R4, R5: every admitted width is positive, and W divides N, so there is at least one lane. -/
theorem one_le_lanes (c : Config) : 1 ≤ c.lanes := by
  have h := c.isLegal
  simp only [Params.legal, admittedWidths, Bool.and_eq_true, decide_eq_true_eq, List.contains_eq_mem,
    List.mem_cons, List.not_mem_nil, or_false] at h
  have hn : 0 < c.n := by omega
  have hd : c.w ∣ c.n := Nat.dvd_of_mod_eq_zero (by omega)
  exact Nat.div_pos (Nat.le_of_dvd hn hd) (by omega)

/-- The number of doubling steps of R49 and of passes of R74: ceilLog2(L) (R55). -/
def passCount (c : Config) : Nat := ceilLog2 c.lanes (one_le_lanes c)

end Sys2Proof.Machine
end

