-- ==== Sys2Proof/Machine/Decode10.lean ====
section
/-!
DEFINITION. The base-10 packed-digit decoder DECODE (45_decode10.md R69 to R75).
-/

namespace Sys2Proof.Machine

open Sys2Proof

/-- `InDomain(A)`: every lane is a decimal digit (R71). -/
def inDomain (c : Config) (a : Word) : Bool :=
  (List.range c.lanes).all fun k => decide (lane c a k ≤ 9)

/-- The sum of lane k times 10^k over the first `k` lanes, lane 0 the least significant digit (R69). -/
def digitSum (c : Config) (a : Word) : Nat → Nat
  | 0 => 0
  | k + 1 => digitSum c a k + lane c a k * 10 ^ k

/-- The sum over all lanes of lane k times 10^k, as an exact integer (R72). -/
def decimalValue (c : Config) (a : Word) : Nat := digitSum c a c.lanes

/-- The response of DECODE: the decimal value in the domain (R72), a free value outside it (R73, log 8). -/
def respDecode (c : Config) (a : Word) : Response :=
  if inDomain c a then scalarResponse c (decimalValue c a)
  else scalarResponse c (Config.decodeOutOfDomain c.n c.w c.out (lowBits c.n a)).toNat

/-- DECODE (R72, R73); on a block without a decoder its opcode is reserved (R45, log 12). -/
def execDecode (a : Word) (s : State) : Host.Outcome State Fault Refusal :=
  if s.cfg.hasDecode then .next (s.accept (respDecode s.cfg a))
  else .refused (.reservedOpcode Mnemonic.DECODE.opcode)

/-! ### The reference tree (R74, R75), which defines no behaviour -/

/-- Group j of x, for groups of `g` bits. -/
def groupOf (g x j : Nat) : Nat := x / 2 ^ (g * j) % 2 ^ g

/-- Pass p of R74: each pair of adjacent groups of W·2^p bits becomes one of twice the width. -/
def combinePairs (c : Config) (p x : Nat) : Nat :=
  packNat (2 * (c.w * 2 ^ p))
    (fun j => groupOf (c.w * 2 ^ p) x (2 * j + 1) * 10 ^ 2 ^ p + groupOf (c.w * 2 ^ p) x (2 * j))
    (c.lanes / 2 ^ (p + 1))

/-- X_p of R74. -/
def treeStage (c : Config) (a : Word) : Nat → Nat
  | 0 => (lowBits c.n a).toNat
  | p + 1 => combinePairs c p (treeStage c a p)

/-- The reference tree's result: X_P cut or extended to OUT bits (R74). -/
def decodeByTree (c : Config) (a : Word) : Word :=
  lowBits c.out (BitVec.ofNat 128 (treeStage c a (passCount c)))

/-- `LOW_p` of R75: the low group of every pair. -/
def lowGroups (c : Config) (p : Nat) : Nat :=
  packNat (2 * (c.w * 2 ^ p)) (fun _ => 2 ^ (c.w * 2 ^ p) - 1) (c.lanes / 2 ^ (p + 1))

/-- Pass p as whole-register operations on N-bit values (R75). -/
def combineWhole (c : Config) (p : Nat) (x : BitVec c.n) : BitVec c.n :=
  ((x >>> (c.w * 2 ^ p)) &&& BitVec.ofNat c.n (lowGroups c p)) * BitVec.ofNat c.n (10 ^ 2 ^ p) +
    (x &&& BitVec.ofNat c.n (lowGroups c p))

/-- X_p of R74 by the whole-register passes of R75. -/
def wholeStage (c : Config) (a : Word) : Nat → BitVec c.n
  | 0 => a.setWidth c.n
  | p + 1 => combineWhole c p (wholeStage c a p)

end Sys2Proof.Machine
end

