-- ==== Sys2Proof/Machine/Mask.lean ====
section
/-!
DEFINITION. The lane-broadcast mask generator: BCAST and MSBS (40_mask_broadcast.md R48 to R50).
-/

namespace Sys2Proof.Machine

open Sys2Proof

/-- BCAST's pattern: V in every lane (R48). -/
def broadcast (c : Config) (v : Word) : Word := pack c fun _ => v.toNat % 2 ^ c.w

/-- The response of BCAST (R48). -/
def respBcast (c : Config) (v : Word) : Response := laneResponse (broadcast c v)

/-- The response of MSBS (R50). -/
def respMsbs (c : Config) : Response := laneResponse (marker c)

/-- BCAST (R48). -/
def execBcast (v : Word) (s : State) : Host.Outcome State Fault Refusal :=
  .next (s.accept (respBcast s.cfg v))

/-- MSBS (R50). -/
def execMsbs (s : State) : Host.Outcome State Fault Refusal :=
  .next (s.accept (respMsbs s.cfg))

/-- P_k of R49's construction by doubling, on N-bit values. -/
def doubling (c : Config) (v : Word) : Nat → BitVec c.n
  | 0 => BitVec.ofNat c.n (v.toNat % 2 ^ c.w)
  | k + 1 => doubling c v k ||| (doubling c v k <<< (c.w * 2 ^ k))

/-- R49: the pattern after ceilLog2(L) doubling steps. -/
def broadcastByDoubling (c : Config) (v : Word) : Word := (doubling c v (passCount c)).setWidth 128

end Sys2Proof.Machine
end

