-- ==== Sys2Proof/Machine/Reduce.lean ====
section
/-!
DEFINITION. The horizontal lane reductions FFS, FLS and POPC (44_reduce.md R64 to R67).
-/

namespace Sys2Proof.Machine

open Sys2Proof

/-- ctz(H) div W (R64). -/
def firstHitLane (c : Config) (x : Word) : Nat := ctz c.n (maskedHits c x).toNat / c.w

/-- (N − 1 − clz(H)) div W (R65). -/
def lastHitLane (c : Config) (x : Word) : Nat := (c.n - 1 - clz c.n (maskedHits c x).toNat) / c.w

/-- popcount(H) (R66). -/
def hitCount (c : Config) (x : Word) : Nat := popcount c.n (maskedHits c x).toNat

/-- The response of FFS (R64). -/
def respFfs (c : Config) (a : Word) : Response :=
  if noLaneHit c a then noMatchResponse else scalarResponse c (firstHitLane c a)

/-- The response of FLS (R65). -/
def respFls (c : Config) (a : Word) : Response :=
  if noLaneHit c a then noMatchResponse else scalarResponse c (lastHitLane c a)

/-- The response of POPC (R66). -/
def respPopc (c : Config) (a : Word) : Response := scalarResponse c (hitCount c a)

/-- FFS (R64). -/
def execFfs (a : Word) (s : State) : Host.Outcome State Fault Refusal :=
  .next (s.accept (respFfs s.cfg a))

/-- FLS (R65). -/
def execFls (a : Word) (s : State) : Host.Outcome State Fault Refusal :=
  .next (s.accept (respFls s.cfg a))

/-- POPC (R66). -/
def execPopc (a : Word) (s : State) : Host.Outcome State Fault Refusal :=
  .next (s.accept (respPopc s.cfg a))

end Sys2Proof.Machine
end

