-- ==== Sys2Proof/Machine/Dispatch.lean ====
section
/-! DEFINITION. One clock cycle in which the block accepts a given request (log 15): one arm for each row of the opcode table
(30_encoding.md R40, 10_state.md R19). -/

namespace Sys2Proof.Machine

open Sys2Proof

def exec (i : Instr) (s : State) : Host.Outcome State Fault Refusal :=
  match i with
  | .bcast v => Sys2Proof.Machine.execBcast v s
  | .msbs => Sys2Proof.Machine.execMsbs s
  | .add a b => Sys2Proof.Machine.execAdd a b s
  | .sub a b => Sys2Proof.Machine.execSub a b s
  | .cmpeq a b => Sys2Proof.Machine.execCmpeq a b s
  | .cmplt a b => Sys2Proof.Machine.execCmplt a b s
  | .ffs a => Sys2Proof.Machine.execFfs a s
  | .fls a => Sys2Proof.Machine.execFls a s
  | .popc a => Sys2Proof.Machine.execPopc a s
  | .decode a => Sys2Proof.Machine.execDecode a s

end Sys2Proof.Machine
end

