-- ==== Sys2Proof/Machine/Step.lean ====
section
/-!
DEFINITION. One step of the machine: one rising edge of `clk` (10_state.md R16, R23; log 15).
-/

namespace Sys2Proof.Machine

open Sys2Proof

/-- One clock cycle. A cycle with `rst` = 1 empties the block (R87, R88); a cycle with a request runs the instruction
that it decodes to, and is refused if its opcode is reserved (R45, log 5); any other cycle only moves the responses
in flight (R24). -/
def step (s : State) : Host.Outcome State Fault Refusal :=
  if s.nextCycle.rst then .next s.consumed.flush
  else if s.nextCycle.valid then
    match decode s.cfg s.nextCycle.req with
    | .ok i => exec i s.consumed
    | .error _ => .refused (.reservedOpcode s.nextCycle.req.op)
  else .next s.consumed.idle

/-- The same block with the request of an opcode-table word on its ports at the coming edge (log 4, log 11). -/
def State.withFetchWord (s : State) (nbits w : Nat) : State :=
  { s with inputs := PortCycle.present (tableRequest nbits w) :: s.inputs.tail }

end Sys2Proof.Machine
end

