-- ==== Sys2Proof/Machine/Port.lean ====
section
/-!
DEFINITION. The block as its ports show it: the total function Exec of 10_state.md R19, with the all-zero answer to a
reserved opcode (30_encoding.md R45), and one clock cycle of the ports. The machine's own step refuses a reserved
opcode instead (log 5).
-/

namespace Sys2Proof.Machine

open Sys2Proof

/-- The response to each instruction (R19). -/
def respond (c : Config) : Instr → Response
  | .bcast v => respBcast c v
  | .msbs => respMsbs c
  | .add a b => respAdd c a b
  | .sub a b => respSub c a b
  | .cmpeq a b => respCmpeq c a b
  | .cmplt a b => respCmplt c a b
  | .ffs a => respFfs c a
  | .fls a => respFls c a
  | .popc a => respPopc c a
  | .decode a => respDecode c a

/-- `Exec(req.op, req.a, req.b)` (R19): total, with the all-zero response to a reserved opcode (R45). -/
def portExec (c : Config) (q : Request) : Response :=
  match decode c q with
  | .ok i => respond c i
  | .error _ => reservedResponse

/-- One clock cycle of the block under the port values `x` (R16, R23, R45, R87, R93): total. -/
def State.clockPort (s : State) (x : PortCycle) : State :=
  if x.rst then s.flush
  else if x.valid then s.accept (portExec s.cfg x.req)
  else s.idle

end Sys2Proof.Machine
end

