-- ==== Sys2Proof/Machine/Listing.lean ====
section
/-!
DEFINITION. The host's listing notation (30_encoding.md R46): one line is one transaction over values that the host
holds by name. Nothing here is state of the block (10_state.md R13); a line's request is the triple (`op`, `a`, `b`).
-/

namespace Sys2Proof.Machine

open Sys2Proof

/-- What may stand for an operand on a line (R46). -/
inductive Source where
  /-- `#imm`, a literal. -/
  | imm (v : Nat)
  /-- The name of a value that the host holds. -/
  | name (x : String)
  deriving DecidableEq, Repr

/-- `dst = MNEMONIC` with its sources (R46). -/
structure Line where
  dst : String
  mnemonic : Mnemonic
  sources : List Source
  deriving DecidableEq, Repr

/-- A value that the host holds: what `dst` names and what `dst.none` names (R46), the latter for the
host to test and no source of a line (log 14). -/
structure HostValue where
  value : Word
  noMatch : Bool
  deriving DecidableEq, Repr

/-- Why a line is not a transaction. -/
inductive ListingError where
  /-- The sources do not have the form of the operation's class. -/
  | wrongSources
  /-- A literal that is not below 2^W. -/
  | literalTooWide
  /-- A name that the host holds no value for. -/
  | unknownName (x : String)
  /-- The operation's opcode is reserved on this block (R45): the host must not issue it (R25). -/
  | reserved (op : BitVec 4)
  deriving DecidableEq, Repr

/-- The value of a name: the last one bound. R46 does not say whether `x.none` may itself stand as a source; DESIGN
CHOICE: it may not, and is a name without a value (log 14). -/
def lookupName (env : List (String × HostValue)) (x : String) : Except ListingError Word :=
  match env with
  | [] => .error (.unknownName x)
  | (y, v) :: rest => if y = x then .ok v.value else lookupName rest x

/-- The request of a line, by its operation's class (R38, R46): a literal gives a = zext_N(imm) and must be below 2^W;
operand bits that the operation does not read, `a[N-1:W]` of BCAST among them (R21), are written as zero. -/
def lineRequest (c : Config) (env : List (String × HostValue)) (l : Line) : Except ListingError Request :=
  match operandClass l.mnemonic, l.sources with
  | .N0, [] => .ok ⟨l.mnemonic.opcode, 0, 0⟩
  | .V1, [.imm v] =>
    if v < 2 ^ c.w then .ok ⟨l.mnemonic.opcode, BitVec.ofNat 128 v, 0⟩ else .error .literalTooWide
  | .V1, [.name x] => (lookupName env x).map fun a => ⟨l.mnemonic.opcode, lowBits c.w a, 0⟩
  | .A1, [.name x] => (lookupName env x).map fun a => ⟨l.mnemonic.opcode, lowBits c.n a, 0⟩
  | .A2, [.name x, .name y] =>
    match lookupName env x, lookupName env y with
    | .ok a, .ok b => .ok ⟨l.mnemonic.opcode, lowBits c.n a, lowBits c.n b⟩
    | .error e, _ => .error e
    | _, .error e => .error e
  | _, _ => .error .wrongSources

/-- What `dst` names of a response: `rsp.s` for FFS, FLS, POPC and DECODE, `rsp.r` for the lane operations; and what
`dst.none` names (R46). -/
def namedResult (m : Mnemonic) (q : Response) : HostValue :=
  match m with
  | .FFS | .FLS | .POPC | .DECODE => ⟨q.s, q.noMatch⟩
  | .BCAST | .MSBS | .ADD | .SUB | .CMPEQ | .CMPLT => ⟨q.r, q.noMatch⟩

/-- One line: the host issues its request, waits for the response (R92) and holds the result under `dst`. -/
def runLine (c : Config) (env : List (String × HostValue)) (l : Line) :
    Except ListingError (List (String × HostValue)) :=
  match lineRequest c env l with
  | .error e => .error e
  | .ok q =>
    match decode c q with
    | .error _ => .error (.reserved q.op)
    | .ok i => .ok ((l.dst, namedResult l.mnemonic (respond c i)) :: env)

/-- Lines one after another, each issued after the response to the one before it. -/
def runLines (c : Config) (env : List (String × HostValue)) :
    List Line → Except ListingError (List (String × HostValue))
  | [] => .ok env
  | l :: rest =>
    match runLine c env l with
    | .error e => .error e
    | .ok env' => runLines c env' rest

end Sys2Proof.Machine
end

