-- ==== Sys2Proof/Safety.lean ====
section
/-!
DEFINITION. The terms in which claims about runs are stated: what it is for a cycle to accept a request, which states
are whole, which host keeps its side, and what the ports owe it.
-/

namespace Sys2Proof.Machine

open Sys2Proof

/-- What one cycle does to the response port of a block whose ports can be trusted: it carries the response of a
filled slot, and otherwise `rsp_valid` is 0 and the data ports carry one more free value (R18, R22). Before the first
reset of a block with LATENCY > 0 every output is one more free value (R89). Of free values nothing is said. -/
def Delivers (s t : State) (slot : Option Response) : Prop :=
  if s.trusted = true then
    match slot with
    | some q => t.rspValid = true ∧ t.rsp = q ∧ t.freeTick = s.freeTick
    | none => t.rspValid = false ∧ t.freeTick = s.freeTick + 1
  else t.freeTick = s.freeTick + 1

/-- `t` is `s` one cycle later, `arrival` having entered the in-flight storage (R24, R93): the oldest slot is
delivered, the others keep their order, and the parameters, the host's coming port values and the mark of a reset since
power-on are as they were. -/
def Clocked (s t : State) (arrival : Option Response) : Prop :=
  t.cfg = s.cfg ∧ t.inputs = s.inputs ∧ t.resetSeen = s.resetSeen ∧
    ∃ slot, s.pipe ++ [arrival] = slot :: t.pipe ∧ Delivers s t slot

/-- `t` is `s` one cycle later, the block having accepted a request whose response is `q`. -/
def Accepted (s t : State) (q : Response) : Prop := Clocked s t (some q)

/-- A response has the ports' widths (R18), and "no match" comes with `rsp.s` = 0 and `rsp.r` = 0 (R20, R64). -/
def Response.whole (c : Config) (q : Response) : Bool :=
  fits c.n q.r && fits c.out q.s && (!q.noMatch || (q.r == 0 && q.s == 0))

/-- The response port carries values of its widths (R18). -/
def Response.fitsPorts (c : Config) (q : Response) : Bool := fits c.n q.r && fits c.out q.s

/-- A slot of the in-flight storage is empty or holds a response of the ports' widths. -/
def slotFits (c : Config) (slot : Option Response) : Bool :=
  match slot with
  | some q => q.fitsPorts c
  | none => true

/-- A slot of the in-flight storage is empty or holds a whole response. -/
def slotWhole (c : Config) (slot : Option Response) : Bool :=
  match slot with
  | some q => q.whole c
  | none => true

/-- A whole state: LATENCY slots (R24), what they hold and what the ports show within the ports' widths (R18); and,
where the ports can be trusted (R89), every response in flight whole, and the one on the ports while `rsp_valid` is
1. -/
def State.whole (s : State) : Bool :=
  decide (s.pipe.length = s.cfg.latency) && s.pipe.all (slotFits s.cfg) && s.rsp.fitsPorts s.cfg &&
    (!s.trusted || (s.pipe.all (slotWhole s.cfg) && (!s.rspValid || s.rsp.whole s.cfg)))

/-- The host keeps its side in a cycle: no reserved opcode (R25, R45). -/
def permitted (c : Config) (x : PortCycle) : Bool :=
  x.rst || !x.valid || (selectOp c x.req.op).toBool

/-- The host keeps its side in every cycle it has planned, and asserts no reset. -/
def steadyHost (c : Config) (xs : List PortCycle) : Bool :=
  xs.all fun x => permitted c x && !x.rst

/-- The host's `k`-th coming cycle; nothing is presented after the last one. -/
def cycleAt (xs : List PortCycle) (k : Nat) : PortCycle := (xs[k]?).getD PortCycle.quiet

/-- The ports show in state `t` what they owe for the cycle `x`: the response to its request, or `rsp_valid` = 0 if it
carried none (R16, R19, R93). -/
def Answers (c : Config) (t : State) (x : PortCycle) : Prop :=
  t.rspValid = x.valid ∧ (x.valid = true → t.rsp = portExec c x.req)

/-- Two configurations are one block but for LATENCY (R93). -/
def sameButLatency (c d : Config) : Prop :=
  c.n = d.n ∧ c.w = d.w ∧ c.out = d.out ∧ c.hasDecode = d.hasDecode

/-- The operand bits that the operation does not read are zero (R21, R46). -/
def unreadBitsZero (c : Config) (m : Mnemonic) (q : Request) : Prop :=
  match operandClass m with
  | .N0 => q.a = 0 ∧ q.b = 0
  | .V1 => fits c.w q.a = true ∧ q.b = 0
  | .A1 => fits c.n q.a = true ∧ q.b = 0
  | .A2 => fits c.n q.a = true ∧ fits c.n q.b = true

/-- Two requests agree in the opcode and in every operand bit that the operation reads (R21, R38). -/
def sameReadBits (c : Config) (p q : Request) : Prop :=
  p.op = q.op ∧
    ∀ m, selectOp c p.op = .ok m →
      match operandClass m with
      | .N0 => True
      | .V1 => lowBits c.w p.a = lowBits c.w q.a
      | .A1 => lowBits c.n p.a = lowBits c.n q.a
      | .A2 => lowBits c.n p.a = lowBits c.n q.a ∧ lowBits c.n p.b = lowBits c.n q.b

end Sys2Proof.Machine
end

