-- ==== Sys2Proof/Certificates/Slice0/Obligations.lean ====
section
/-!
DEFINITION. The statements for the provers. "R<n>" is a numbered rule of spec/; a statement that rests on a choice of
this model says so and names its log entry.
-/

open Sys2Proof Sys2Proof.Machine

/-! ### Parameters and reset -/

/-- R12: the reference configuration is N = 128, W = 8, L = 16, OUT = 64 with a decoder, and 10^16 ≤ 2^64. -/
def Obligations.ReferenceConfigurationIsCfgA : Prop :=
  cfgA.n = 128 ∧ cfgA.w = 8 ∧ cfgA.lanes = 16 ∧ cfgA.out = 64 ∧ cfgA.hasDecode = true ∧
    (10 : Nat) ^ cfgA.lanes ≤ 2 ^ cfgA.out

/-- What R4, R5, R6 and R8 leave of a parameter set: W and L are powers of two and L · W = N, a lane count fits the
scalar result, and with a decoder every lane holds a digit and every L-digit number fits OUT bits. -/
def Obligations.LegalParametersShape : Prop :=
  ∀ c : Config, (∃ j k, c.w = 2 ^ j ∧ c.lanes = 2 ^ k ∧ j + k ≤ 7) ∧ c.lanes * c.w = c.n ∧
    c.lanes < 2 ^ c.out ∧
    (c.hasDecode = true → 9 < 2 ^ c.w ∧ ∀ v, v < 10 ^ c.lanes → v < 2 ^ c.out)

/-- 45_decode10.md, under the table of legal configurations: with W ≥ 4, OUT = N is always wide enough. -/
def Obligations.DecoderFitsOutEqualN : Prop :=
  ∀ c : Config, 4 ≤ c.w → Params.legal ⟨c.n, c.w, c.n, true, c.latency⟩ = true

/-- 10_state.md section 5: right after reset nothing is in flight and `rsp_valid` is 0, on every block. That State.reset
is the block CFG-A with LATENCY 0 is the model's choice (log 2). -/
def Obligations.ResetLeavesBlockEmpty : Prop :=
  (∀ c : Config, (State.resetOf c).cfg = c ∧ (State.resetOf c).pipe = List.replicate c.latency none ∧
    (State.resetOf c).rspValid = false) ∧
  State.reset = State.resetOf cfgA

/-! ### Each operation: its opcode, its response, and nothing else -/

/-- R48. For every value of `a` and of `b` (`b` and the bits of `a` above W − 1 are ignored), opcode 0x0 is BCAST of
V = a[W−1:0]; and BCAST always completes: the block accepts one response, whose every lane is V, which is V · ONES
with ONES = (2^N − 1) / (2^W − 1), and whose `rsp.s` and `rsp.none` are 0. -/
def Obligations.BcastFillsEveryLane : Prop :=
  (∀ (c : Config) (a b : Word), decode c ⟨0x0#4, a, b⟩ = .ok (.bcast (lowBits c.w a))) ∧
  ∀ (v : Word) (s : State), ∃ t q, exec (.bcast v) s = .next t ∧ Accepted s t q ∧
    q.fitsPorts s.cfg = true ∧
    (∀ i, i < s.cfg.lanes → lane s.cfg q.r i = v.toNat % 2 ^ s.cfg.w) ∧
    q.r.toNat = v.toNat % 2 ^ s.cfg.w * ((2 ^ s.cfg.n - 1) / (2 ^ s.cfg.w - 1)) ∧
    q.s = 0 ∧ q.noMatch = false

/-- R50. For every value of `a` and `b`, opcode 0x1 is MSBS; it always completes, with the response in which bit
i·W + W − 1 is set for every lane i and every other bit is zero, and `rsp.s` and `rsp.none` are 0. -/
def Obligations.MsbsMarksEveryLaneTop : Prop :=
  (∀ (c : Config) (a b : Word), decode c ⟨0x1#4, a, b⟩ = .ok .msbs) ∧
  ∀ s : State, ∃ t q, exec .msbs s = .next t ∧ Accepted s t q ∧ q.fitsPorts s.cfg = true ∧
    (∀ i, i < s.cfg.lanes → lane s.cfg q.r i = 2 ^ (s.cfg.w - 1)) ∧
    (∀ k, k < 128 → (q.r.toNat.testBit k = true ↔ ∃ i, i < s.cfg.lanes ∧ k = i * s.cfg.w + s.cfg.w - 1)) ∧
    q.s = 0 ∧ q.noMatch = false

/-- R56. Opcode 0x2 is ADD of `a` and `b`; it always completes, lane i of the response being the sum of the operands'
lanes i modulo 2^W, and `rsp.s` and `rsp.none` are 0. -/
def Obligations.AddIsLaneSumModulo : Prop :=
  (∀ (c : Config) (a b : Word), decode c ⟨0x2#4, a, b⟩ = .ok (.add (lowBits c.n a) (lowBits c.n b))) ∧
  ∀ (a b : Word) (s : State), ∃ t q, exec (.add a b) s = .next t ∧ Accepted s t q ∧
    q.fitsPorts s.cfg = true ∧
    (∀ i, i < s.cfg.lanes → lane s.cfg q.r i = (lane s.cfg a i + lane s.cfg b i) % 2 ^ s.cfg.w) ∧
    q.s = 0 ∧ q.noMatch = false

/-- R58. Opcode 0x3 is SUB with `a` the minuend; it always completes, lane i of the response being the difference of
the operands' lanes i modulo 2^W, and `rsp.s` and `rsp.none` are 0. -/
def Obligations.SubIsLaneDifferenceModulo : Prop :=
  (∀ (c : Config) (a b : Word), decode c ⟨0x3#4, a, b⟩ = .ok (.sub (lowBits c.n a) (lowBits c.n b))) ∧
  ∀ (a b : Word) (s : State), ∃ t q, exec (.sub a b) s = .next t ∧ Accepted s t q ∧
    q.fitsPorts s.cfg = true ∧
    (∀ i, i < s.cfg.lanes →
      lane s.cfg q.r i = (lane s.cfg a i + 2 ^ s.cfg.w - lane s.cfg b i) % 2 ^ s.cfg.w) ∧
    q.s = 0 ∧ q.noMatch = false

/-- R61 with R60. Opcode 0x4 is CMPEQ; it always completes, with the hit mask in which the designated bit of lane i is
1 iff the operands' lanes i are equal and every other bit is 0, and `rsp.s` and `rsp.none` are 0. -/
def Obligations.CmpeqMarksEqualLanes : Prop :=
  (∀ (c : Config) (a b : Word), decode c ⟨0x4#4, a, b⟩ = .ok (.cmpeq (lowBits c.n a) (lowBits c.n b))) ∧
  ∀ (a b : Word) (s : State), ∃ t q, exec (.cmpeq a b) s = .next t ∧ Accepted s t q ∧
    q.fitsPorts s.cfg = true ∧
    (∀ i, i < s.cfg.lanes → (q.r.toNat.testBit (i * s.cfg.w + s.cfg.w - 1) = true ↔
      lane s.cfg a i = lane s.cfg b i)) ∧
    q.r &&& ~~~(marker s.cfg) = 0 ∧
    q.s = 0 ∧ q.noMatch = false

/-- R62 with R60. Opcode 0x5 is CMPLT; it always completes, with the hit mask in which the designated bit of lane i is
1 iff lane i of `a` is below lane i of `b` as unsigned integers and every other bit is 0, and `rsp.s` and `rsp.none`
are 0. -/
def Obligations.CmpltMarksLesserLanes : Prop :=
  (∀ (c : Config) (a b : Word), decode c ⟨0x5#4, a, b⟩ = .ok (.cmplt (lowBits c.n a) (lowBits c.n b))) ∧
  ∀ (a b : Word) (s : State), ∃ t q, exec (.cmplt a b) s = .next t ∧ Accepted s t q ∧
    q.fitsPorts s.cfg = true ∧
    (∀ i, i < s.cfg.lanes → (q.r.toNat.testBit (i * s.cfg.w + s.cfg.w - 1) = true ↔
      lane s.cfg a i < lane s.cfg b i)) ∧
    q.r &&& ~~~(marker s.cfg) = 0 ∧
    q.s = 0 ∧ q.noMatch = false

/-- R64. For every `b`, opcode 0x6 is FFS of `a`; it always completes. With no designated bit of the operand set the
response is "no match" with `rsp.s` = 0; otherwise `rsp.none` is 0 and `rsp.s` is the least lane whose designated bit
is set. `rsp.r` is 0. -/
def Obligations.FfsFindsLeastHitLane : Prop :=
  (∀ (c : Config) (a b : Word), decode c ⟨0x6#4, a, b⟩ = .ok (.ffs (lowBits c.n a))) ∧
  ∀ (a : Word) (s : State), ∃ t q, exec (.ffs a) s = .next t ∧ Accepted s t q ∧ q.r = 0 ∧
    ((∀ i, i < s.cfg.lanes → hit s.cfg a i = false) → q.noMatch = true ∧ q.s = 0) ∧
    ∀ i, i < s.cfg.lanes → hit s.cfg a i = true → (∀ j, j < i → hit s.cfg a j = false) →
      q.noMatch = false ∧ q.s.toNat = i

/-- R65. For every `b`, opcode 0x7 is FLS of `a`; it always completes. With no designated bit of the operand set the
response is "no match" with `rsp.s` = 0; otherwise `rsp.none` is 0 and `rsp.s` is the greatest lane whose designated
bit is set. `rsp.r` is 0. -/
def Obligations.FlsFindsGreatestHitLane : Prop :=
  (∀ (c : Config) (a b : Word), decode c ⟨0x7#4, a, b⟩ = .ok (.fls (lowBits c.n a))) ∧
  ∀ (a : Word) (s : State), ∃ t q, exec (.fls a) s = .next t ∧ Accepted s t q ∧ q.r = 0 ∧
    ((∀ i, i < s.cfg.lanes → hit s.cfg a i = false) → q.noMatch = true ∧ q.s = 0) ∧
    ∀ i, i < s.cfg.lanes → hit s.cfg a i = true →
      (∀ j, i < j → j < s.cfg.lanes → hit s.cfg a j = false) → q.noMatch = false ∧ q.s.toNat = i

/-- R66. For every `b`, opcode 0x8 is POPC of `a`; it always completes, `rsp.s` being the number of lanes whose
designated bit is set, `rsp.none` 0 (also when that number is 0) and `rsp.r` 0. -/
def Obligations.PopcCountsHitLanes : Prop :=
  (∀ (c : Config) (a b : Word), decode c ⟨0x8#4, a, b⟩ = .ok (.popc (lowBits c.n a))) ∧
  ∀ (a : Word) (s : State), ∃ t q, exec (.popc a) s = .next t ∧ Accepted s t q ∧ q.r = 0 ∧
    q.s.toNat = ((List.range s.cfg.lanes).filter fun i => hit s.cfg a i).length ∧
    q.noMatch = false

/-- R72. On a block with a decoder, for every `b`, opcode 0x9 is DECODE of `a`, and it always completes: where every
lane is at most 9, `rsp.s` is the sum of lane k times 10^k, exactly; otherwise it is the open function
`DecodeOutOfDomain` of the operand (R73). `rsp.none` and `rsp.r` are 0. -/
def Obligations.DecodeReadsDecimalDigits : Prop :=
  (∀ (c : Config) (a b : Word), c.hasDecode = true → decode c ⟨0x9#4, a, b⟩ = .ok (.decode (lowBits c.n a))) ∧
  ∀ (a : Word) (s : State), s.cfg.hasDecode = true →
    ∃ t q, exec (.decode a) s = .next t ∧ Accepted s t q ∧ q.r = 0 ∧ q.noMatch = false ∧
      ((∀ k, k < s.cfg.lanes → lane s.cfg a k ≤ 9) →
        q.s.toNat = ((List.range s.cfg.lanes).map fun k => lane s.cfg a k * 10 ^ k).sum) ∧
      (¬ (∀ k, k < s.cfg.lanes → lane s.cfg a k ≤ 9) →
        q.s = lowBits s.cfg.out
          (Config.decodeOutOfDomain s.cfg.n s.cfg.w s.cfg.out (lowBits s.cfg.n a)))

/-! ### Steps -/

/-- A step runs the decoded instruction (10_state.md section 2): in a cycle without reset that carries a request, the
step is exec of the instruction that the request decodes to, at the state whose coming port values are the later
ones. -/
def Obligations.StepRunsDecodedInstruction : Prop :=
  ∀ (s : State) (x : PortCycle) (rest : List PortCycle) (i : Instr),
    s.inputs = x :: rest → x.rst = false → x.valid = true → decode s.cfg x.req = .ok i →
    step s = exec i { s with inputs := rest }

/-- A word of the opcode table placed for the next step is what the next step runs, with zero operands (log 11). -/
def Obligations.PlacedTableWordRunsNext : Prop :=
  ∀ (s : State) (nbits w : Nat) (i : Instr), decode s.cfg (tableRequest nbits w) = .ok i →
    step (s.withFetchWord nbits w) = exec i s.consumed

/-- 30_encoding.md section 3. A request with opcode 0xA to 0xF, or 0x9 on a block without a decoder, is refused by the
step. The two clauses after it are the model's choices: DECODE run directly on a block without a decoder is refused too
(log 12), and beside the refusal the model keeps, at the block's ports, the all-zero response, delivered like any other
(log 5). -/
def Obligations.ReservedOpcodesAreRefused : Prop :=
  ∀ (s : State) (x : PortCycle) (rest : List PortCycle),
    s.inputs = x :: rest → x.rst = false → x.valid = true →
    (10 ≤ x.req.op.toNat ∨ (x.req.op = 0x9#4 ∧ s.cfg.hasDecode = false)) →
    step s = .refused (.reservedOpcode x.req.op) ∧
    (∀ a, s.cfg.hasDecode = false → exec (.decode a) s = .refused (.reservedOpcode 0x9#4)) ∧
    Accepted s (s.clockPort x) { r := 0, s := 0, noMatch := false }

/-- 60_exceptions.md section 6: the step stops only at a reserved opcode, presented in a cycle without reset. -/
def Obligations.StepStopsOnlyOnReserved : Prop :=
  ∀ s : State,
    (∃ t, step s = .next t) ∨
    (s.nextCycle.rst = false ∧ s.nextCycle.valid = true ∧
      (10 ≤ s.nextCycle.req.op.toNat ∨ (s.nextCycle.req.op = 0x9#4 ∧ s.cfg.hasDecode = false)) ∧
      step s = .refused (.reservedOpcode s.nextCycle.req.op))

/-- A cycle without reset and without a request only moves the responses in flight (10_state.md section 3); so does a
cycle for which the host has planned nothing (log 4). -/
def Obligations.QuietCycleOnlyMovesPipe : Prop :=
  (∀ (s : State) (x : PortCycle) (rest : List PortCycle),
    s.inputs = x :: rest → x.rst = false → x.valid = false →
    ∃ t, step s = .next t ∧ Clocked { s with inputs := rest } t none) ∧
  ∀ s : State, s.inputs = [] → ∃ t, step s = .next t ∧ Clocked s t none

/-- 70_reset_and_hazards.md section 1: a cycle with `rst` = 1, whatever else it carries, accepts no request, leaves
nothing in flight and `rsp_valid` = 0, and changes no parameter, in every state, so also at power-on; from then on the
ports can be trusted. -/
def Obligations.ResetCycleEmptiesBlock : Prop :=
  ∀ (s : State) (x : PortCycle) (rest : List PortCycle), s.inputs = x :: rest → x.rst = true →
    ∃ t, step s = .next t ∧ t.cfg = s.cfg ∧ t.inputs = rest ∧
      t.pipe = List.replicate s.cfg.latency none ∧ t.rspValid = false ∧ t.trusted = true

/-- The step agrees with the block's ports wherever it does not refuse (log 5). -/
def Obligations.StepFollowsThePorts : Prop :=
  ∀ s t : State, step s = .next t → t = s.consumed.clockPort s.nextCycle

/-- No step changes a build parameter, and each uses up one cycle of the host's port values (10_state.md section 5,
log 1, log 4). -/
def Obligations.StepKeepsParameters : Prop :=
  ∀ s t : State, step s = .next t → t.cfg = s.cfg ∧ t.inputs = s.inputs.tail

/-! ### Invariant -/

/-- Every step from a whole state leads to a whole state: LATENCY slots, every response of the ports' widths, and,
where the ports can be trusted (70_reset_and_hazards.md section 1), "no match" only with `rsp.s` = 0 and
`rsp.r` = 0. -/
def Obligations.StepKeepsStateWhole : Prop :=
  ∀ s t : State, s.whole = true → step s = .next t → t.whole = true

/-- The state after reset is whole, on every block, and so is the state at power-on. That the data ports hold 0, 0 and
false right after reset is the model's choice (log 6), as is that State.reset is CFG-A with LATENCY 0 (log 2), and so is
the form of the power-on state (log 10). -/
def Obligations.ResetStateIsWhole : Prop :=
  (∀ c : Config, (State.resetOf c).whole = true ∧ (State.powerOn c).whole = true) ∧ State.reset.whole = true

/-- One cycle with `rst` = 1 makes any state whole, so also the state at power-on. -/
def Obligations.ResetCycleMakesAnyStateWhole : Prop :=
  ∀ s t : State, s.nextCycle.rst = true → step s = .next t → t.whole = true

/-! ### Runs -/

/-- 70_reset_and_hazards.md sections 3 and 4: a host that presents no reserved opcode is never stopped and never made to wait, whatever the
sequence and spacing of its requests and resets; the parameters stay. -/
def Obligations.PermittedHostIsNeverStopped : Prop :=
  ∀ (k : Nat) (s : State), s.inputs.all (permitted s.cfg) = true →
    ∃ t, Host.Core.run Sys2Proof.core k s = .next t ∧ t.cfg = s.cfg ∧ t.inputs = s.inputs.drop k

/-- R88 with R93. After a cycle with `rst` = 1 in any state at all, nothing that was in flight is ever answered:
`rsp_valid` is 0 in that cycle and in the next LATENCY cycles; from then on every cycle answers exactly the cycle
LATENCY before it, by Exec of its request if it carried one and by `rsp_valid` = 0 if not. -/
def Obligations.ResetThenEveryRequestAnswered : Prop :=
  ∀ (s : State) (x : PortCycle) (xs : List PortCycle),
    s.inputs = x :: xs → x.rst = true → steadyHost s.cfg xs = true →
    ∃ t0, step s = .next t0 ∧ t0.rspValid = false ∧
      ∀ k, ∃ t, Host.Core.run Sys2Proof.core (k + 1) t0 = .next t ∧
        (k < s.cfg.latency → t.rspValid = false) ∧
        (s.cfg.latency ≤ k → Answers s.cfg t (cycleAt xs (k - s.cfg.latency)))

/-- 10_state.md sections 2 and 3: where the ports can be trusted (after a reset, or with LATENCY = 0), the responses in
flight leave in their order, one slot a cycle, whatever is requested meanwhile. -/
def Obligations.InFlightResponsesLeaveInOrder : Prop :=
  ∀ s : State, s.trusted = true → steadyHost s.cfg s.inputs = true →
    ∀ (k : Nat) (slot : Option Response), s.pipe[k]? = some slot →
      ∃ t, Host.Core.run Sys2Proof.core (k + 1) s = .next t ∧ t.rspValid = slot.isSome ∧
        ∀ q, slot = some q → t.rsp = q

/-! ### What a response depends on -/

/-- R19: a request adds the response Exec gives it, which is the same in any two states of blocks that are alike but
for LATENCY, whatever came before and whatever the clock. -/
def Obligations.ResponseDependsOnRequestAlone : Prop :=
  ∀ (p : Request) (i : Instr) (s t s' t' : State), sameButLatency s.cfg s'.cfg → decode s.cfg p = .ok i →
    exec i s = .next t → exec i s' = .next t' →
    Accepted s t (portExec s.cfg p) ∧ Accepted s' t' (portExec s.cfg p)

/-- R21: operand bits that the operation does not read have no effect on the response. -/
def Obligations.UnreadOperandBitsHaveNoEffect : Prop :=
  ∀ (c : Config) (p q : Request), sameReadBits c p q → decode c p = decode c q ∧ portExec c p = portExec c q

/-- 42_lane_arith.md: lane i of a sum or difference depends on lane i of the operands alone (carry isolation). -/
def Obligations.LanesDoNotDisturbNeighbours : Prop :=
  ∀ (c : Config) (op : BitVec 4) (a b a' b' : Word) (i : Nat), op = 0x2#4 ∨ op = 0x3#4 → i < c.lanes →
    lane c a i = lane c a' i → lane c b i = lane c b' i →
    lane c (portExec c ⟨op, a, b⟩).r i = lane c (portExec c ⟨op, a', b'⟩).r i

/-! ### Encoding -/

/-- Decoding the request word of a well-formed instruction gives the instruction back, for every instruction, every
operand value and every block. -/
def Obligations.DecodeEncodeRoundTrip : Prop :=
  ∀ (c : Config) (i : Instr), i.wellFormed c = true → decodeReq c (encodeReq c i) = .ok i

/-- What decodes is well formed, and its encoding is the request with the unread operand bits set to zero: the opcode
and the read bits are the request's, and `b` is 0 for the classes N0, V1 and A1, `a` is 0 for N0 and below 2^W for V1
(30_encoding.md section 4). -/
def Obligations.EncodeDecodeKeepsReadBits : Prop :=
  ∀ (c : Config) (q : Request) (i : Instr), decode c q = .ok i →
    i.wellFormed c = true ∧ sameReadBits c q (encode i) ∧ unreadBitsZero c i.mnemonic (encode i)

/-- R37: a word of 2N + 4 bits is {op, b, a}, op in bits 2N+3:2N, b in 2N−1:N, a in N−1:0, and every word above is no
request. -/
def Obligations.RequestWordFields : Prop :=
  ∀ (c : Config) (w : ReqWord),
    (w.toNat < 2 ^ (2 * c.n + 4) → ∃ q, unpackReq c w = .ok q ∧ packReq c q = w ∧
      fits c.n q.a = true ∧ fits c.n q.b = true ∧
      (∀ k, k < c.n → q.a.getLsbD k = w.getLsbD k) ∧
      (∀ k, k < c.n → q.b.getLsbD k = w.getLsbD (c.n + k)) ∧
      (∀ k, k < 4 → q.op.getLsbD k = w.getLsbD (2 * c.n + k))) ∧
    (2 ^ (2 * c.n + 4) ≤ w.toNat → decodeReq c w = .error .notARequest)

/-- R41: the opcode alone decides which operation a request is, or that it is reserved. -/
def Obligations.OpcodeAloneSelectsOperation : Prop :=
  ∀ (c : Config) (q : Request),
    (∃ i, decode c q = .ok i ∧ q.op = i.mnemonic.opcode ∧ (i.mnemonic = .DECODE → c.hasDecode = true)) ∨
    (decode c q = .error (.reservedOpcode q.op) ∧
      (10 ≤ q.op.toNat ∨ (q.op = 0x9#4 ∧ c.hasDecode = false)))

/-- Two words of the spec's program P1 decode to the SUB and the DECODE that stand there, and the second with opcode 0xA
is reserved. The last two clauses read words of the opcode table, whose placing (the op field in bits 3 to 0, zero
operands) is the model's choice (log 11). -/
def Obligations.WrittenOutWordsDecode : Prop :=
  decodeReq cfgA 0x33030303030303030303030303030303031323334353637383938373635343332#260 =
    .ok (.sub 0x31323334353637383938373635343332 0x30303030303030303030303030303030) ∧
  decodeReq cfgA 0x90000000000000000000000000000000001020304050607080908070605040302#260 =
    .ok (.decode 0x01020304050607080908070605040302) ∧
  decodeReq cfgA 0xA0000000000000000000000000000000001020304050607080908070605040302#260 =
    .error (.reservedOpcode 0xA#4) ∧
  decodeTableWord 8 0x5 = some (.cmplt 0 0) ∧ decodeTableWord 8 0xA = none

/-- 30_encoding.md section 4: every well-formed instruction has a line whose request is its encoding; the request of any
line has the opcode of its mnemonic and zero in every operand bit that the operation does not read, whatever the host's
values, so it is the encoding of what it decodes to; and a literal of 2^W or more is rejected. The form of a line is the
model's choice (log 14). -/
def Obligations.ListingLinesReachEveryInstruction : Prop :=
  (∀ (c : Config) (i : Instr), i.wellFormed c = true →
    ∃ env l, lineRequest c env l = .ok (encode i)) ∧
  (∀ (c : Config) (env : List (String × HostValue)) (l : Line) (q : Request), lineRequest c env l = .ok q →
    q.op = l.mnemonic.opcode ∧ unreadBitsZero c l.mnemonic q ∧ ∀ i, decode c q = .ok i → q = encode i) ∧
  ∀ (c : Config) (env : List (String × HostValue)) (dst : String) (v : Nat), 2 ^ c.w ≤ v →
    lineRequest c env ⟨dst, .BCAST, [.imm v]⟩ = .error .literalTooWide

/-! ### The reference computations equal the lane-by-lane definitions -/

/-- 41_log_helpers.md: floorLog2(x) is the e with 2^e ≤ x < 2^(e+1); ceilLog2(x) is floorLog2(x) if x is an exact power of
two and floorLog2(x) + 1 otherwise. With what the spec infers from them: ceilLog2(x) is the least e with x ≤ 2^e, and
2^ceilLog2(L) = L on every block. -/
def Obligations.LogHelpersBracketTheirArgument : Prop :=
  (∀ (x : Nat) (h : 1 ≤ x), 2 ^ floorLog2 x h ≤ x ∧ x < 2 ^ (floorLog2 x h + 1)) ∧
  (∀ (x : Nat) (h : 1 ≤ x), ((∃ e, x = 2 ^ e) → ceilLog2 x h = floorLog2 x h) ∧
    ((¬ ∃ e, x = 2 ^ e) → ceilLog2 x h = floorLog2 x h + 1)) ∧
  (∀ (x : Nat) (h : 1 ≤ x), x ≤ 2 ^ ceilLog2 x h ∧ ∀ e, x ≤ 2 ^ e → ceilLog2 x h ≤ e) ∧
  ∀ c : Config, 2 ^ passCount c = c.lanes

/-- 40_mask_broadcast.md: repeated doubling reaches BCAST's pattern. -/
def Obligations.DoublingReachesBroadcast : Prop :=
  ∀ (c : Config) (a b : Word), broadcastByDoubling c a = (portExec c ⟨0x0#4, a, b⟩).r

/-- 42_lane_arith.md: the guarded whole-register addition is the lane-wise sum. -/
def Obligations.GuardedAdditionIsLaneSum : Prop :=
  ∀ (c : Config) (a b : Word), addByGuardBits c a b = (portExec c ⟨0x2#4, a, b⟩).r

/-- 42_lane_arith.md: the guarded whole-register subtraction is the lane-wise difference. -/
def Obligations.GuardedSubtractionIsLaneDifference : Prop :=
  ∀ (c : Config) (a b : Word), subByGuardBits c a b = (portExec c ⟨0x3#4, a, b⟩).r

/-- 43_lane_compare.md: the exclusive-or form of equality is CMPEQ's hit mask. -/
def Obligations.XorEqualityIsHitMask : Prop :=
  ∀ (c : Config) (a b : Word), equalByXor c a b = (portExec c ⟨0x4#4, a, b⟩).r

/-- 43_lane_compare.md: the borrow form of less-than is CMPLT's hit mask. -/
def Obligations.BorrowLessThanIsHitMask : Prop :=
  ∀ (c : Config) (a b : Word), lessByBorrow c a b = (portExec c ⟨0x5#4, a, b⟩).r

/-- 45_decode10.md: with a decoder no group of the tree overflows, for any operand: in every pass each pair of groups of
g bits, high · 10^(2^p) + low, fits 2g bits, and the last stage fits N bits. The last stage is the exact sum over the
lanes; and in the domain the tree's result is DECODE's. -/
def Obligations.DecodeTreeReachesDecimalValue : Prop :=
  ∀ (c : Config) (a b : Word), c.hasDecode = true →
    (∀ p, p < passCount c → ∀ j, j < c.lanes / 2 ^ (p + 1) →
      groupOf (c.w * 2 ^ p) (treeStage c a p) (2 * j + 1) * 10 ^ 2 ^ p +
        groupOf (c.w * 2 ^ p) (treeStage c a p) (2 * j) < 2 ^ (2 * (c.w * 2 ^ p))) ∧
    treeStage c a (passCount c) = ((List.range c.lanes).map fun k => lane c a k * 10 ^ k).sum ∧
    treeStage c a (passCount c) < 2 ^ c.n ∧
    ((∀ k, k < c.lanes → lane c a k ≤ 9) → decodeByTree c a = (portExec c ⟨0x9#4, a, b⟩).s)

/-- 45_decode10.md: a pass as shift, and, multiply, add on N bits is the pair-by-pair pass. -/
def Obligations.WholeRegisterPassesFollowTheTree : Prop :=
  ∀ (c : Config) (a : Word) (p : Nat), c.hasDecode = true → p ≤ passCount c →
    (wholeStage c a p).toNat = treeStage c a p

/-! ### Laws that tie operations together -/

/-- 44_reduce.md, laws (a) to (d): "no match" of FFS, of FLS and a zero count come together; otherwise the first lane
is at most the last, which is below L; the count is 1 exactly when the two are one lane; and the three see only the
designated bits. -/
def Obligations.ReductionsAgree : Prop :=
  ∀ (c : Config) (x b : Word),
    ((portExec c ⟨0x6#4, x, b⟩).noMatch = (portExec c ⟨0x7#4, x, b⟩).noMatch) ∧
    ((portExec c ⟨0x6#4, x, b⟩).noMatch = true ↔ (portExec c ⟨0x8#4, x, b⟩).s = 0) ∧
    ((portExec c ⟨0x6#4, x, b⟩).noMatch = false →
      (portExec c ⟨0x6#4, x, b⟩).s.toNat ≤ (portExec c ⟨0x7#4, x, b⟩).s.toNat ∧
      (portExec c ⟨0x7#4, x, b⟩).s.toNat ≤ c.lanes - 1) ∧
    ((portExec c ⟨0x8#4, x, b⟩).s.toNat = 1 ↔
      (portExec c ⟨0x6#4, x, b⟩).noMatch = false ∧
        (portExec c ⟨0x6#4, x, b⟩).s = (portExec c ⟨0x7#4, x, b⟩).s) ∧
    ∀ op, op = 0x6#4 ∨ op = 0x7#4 ∨ op = 0x8#4 →
      portExec c ⟨op, x, b⟩ = portExec c ⟨op, x &&& marker c, b⟩

/-- 43_lane_compare.md and 44_reduce.md, law (e): in every lane exactly one of A < B, B < A and A = B is marked, and
the three counts sum to L. -/
def Obligations.ComparisonTrichotomy : Prop :=
  ∀ (c : Config) (a b z : Word),
    (∀ i, i < c.lanes →
      (hit c (portExec c ⟨0x5#4, a, b⟩).r i).toNat + (hit c (portExec c ⟨0x5#4, b, a⟩).r i).toNat +
        (hit c (portExec c ⟨0x4#4, a, b⟩).r i).toNat = 1) ∧
    (portExec c ⟨0x8#4, (portExec c ⟨0x4#4, a, b⟩).r, z⟩).s.toNat +
      (portExec c ⟨0x8#4, (portExec c ⟨0x5#4, a, b⟩).r, z⟩).s.toNat +
      (portExec c ⟨0x8#4, (portExec c ⟨0x5#4, b, a⟩).r, z⟩).s.toNat = c.lanes

/-- 43_lane_compare.md section "Predicates the block does not have": not-equal, less-or-equal, greater-or-equal and
signed less-than from the two predicates and the marker mask. -/
def Obligations.DerivedPredicates : Prop :=
  ∀ (c : Config) (a b : Word) (i : Nat), i < c.lanes →
    (hit c ((portExec c ⟨0x4#4, a, b⟩).r ^^^ marker c) i = true ↔ lane c a i ≠ lane c b i) ∧
    (hit c ((portExec c ⟨0x5#4, b, a⟩).r ^^^ marker c) i = true ↔ lane c a i ≤ lane c b i) ∧
    (hit c ((portExec c ⟨0x5#4, a, b⟩).r ^^^ marker c) i = true ↔ lane c b i ≤ lane c a i) ∧
    (hit c (portExec c ⟨0x5#4, a ^^^ marker c, b ^^^ marker c⟩).r i = true ↔
      (BitVec.ofNat c.w (lane c a i)).toInt < (BitVec.ofNat c.w (lane c b i)).toInt)

/-- 42_lane_arith.md: subtracting what was added gives the operand back. -/
def Obligations.SubUndoesAdd : Prop :=
  ∀ (c : Config) (a b : Word), (portExec c ⟨0x3#4, (portExec c ⟨0x2#4, a, b⟩).r, b⟩).r = lowBits c.n a

/-- 40_mask_broadcast.md: MSBS is BCAST of 2^(W−1). -/
def Obligations.MsbsIsBroadcastOfTopBit : Prop :=
  ∀ (c : Config) (a b z : Word),
    portExec c ⟨0x1#4, a, b⟩ = portExec c ⟨0x0#4, BitVec.ofNat 128 (2 ^ (c.w - 1)), z⟩

/-- 45_decode10.md, the round-trip law: the digits of any V below 10^L, lane k holding digit k and zeros above, decode
to V. -/
def Obligations.DecimalRoundTrip : Prop :=
  ∀ (c : Config) (v : Nat) (b : Word), c.hasDecode = true → v < 10 ^ c.lanes →
    portExec c ⟨0x9#4, pack c fun k => v / 10 ^ k % 10, b⟩ =
      { r := 0, s := BitVec.ofNat 128 v, noMatch := false }

/-- 45_decode10.md: a single digit d at lane k decodes to d · 10^k. -/
def Obligations.SingleDigitWeight : Prop :=
  ∀ (c : Config) (d k : Nat) (b : Word), c.hasDecode = true → d ≤ 9 → k < c.lanes →
    (portExec c ⟨0x9#4, pack c fun j => if j = k then d else 0, b⟩).s.toNat = d * 10 ^ k

/-- 45_decode10.md, what the host owes DECODE, (d): on a block with a decoder every lane of d is a digit exactly when
POPC of CMPLT of d and the broadcast of 10 is L. -/
def Obligations.DigitTestByComparison : Prop :=
  ∀ (c : Config) (d z : Word), c.hasDecode = true →
    ((portExec c ⟨0x8#4, (portExec c ⟨0x5#4, d, (portExec c ⟨0x0#4, 10#128, z⟩).r⟩).r, z⟩).s.toNat = c.lanes ↔
      ∀ k, k < c.lanes → lane c d k ≤ 9)

/-! ### The host's operands -/

/-- R30: N/8 bytes at rising addresses make the operand in which byte j is bits 8j+7:8j; with W = 8 lane j is byte
j. -/
def Obligations.HostOperandIsLittleEndian : Prop :=
  ∀ (c : Config) (bytes : List (BitVec 8)), bytes.length = c.n / 8 →
    ∃ x, hostOperand c bytes = some x ∧ fits c.n x = true ∧
      x.toNat = ((List.range (c.n / 8)).map fun j => (bytes.getD j 0).toNat * 2 ^ (8 * j)).sum ∧
      (c.w = 8 → ∀ j, j < c.lanes → lane c x j = (bytes.getD j 0).toNat)

/-- 20_memory.md section 2: at twice the lane width, lane i is the odd lane 2i+1 above the even lane 2i. -/
def Obligations.DoubleWidthLanesPairUp : Prop :=
  ∀ (w i : Nat) (x : Word),
    laneOf (2 * w) x i = laneOf w x (2 * i + 1) * 2 ^ w + laneOf w x (2 * i)

/-! ### Power-on -/

/-- 70_reset_and_hazards.md section 1, on power-on. No reset has been seen then, and the ports can be trusted only with
LATENCY = 0; a reset, and nothing else, is what a step marks as one; and a cycle without reset of a block whose ports
cannot be trusted leaves `rsp_valid` and the data ports unspecified: they are the next free values, whatever was in
flight and whatever is requested. That the unknown values form a sequence is the model's choice (log 10). -/
def Obligations.OutputsAreUnknownBeforeFirstReset : Prop :=
  (∀ c : Config, (State.powerOn c).cfg = c ∧ (State.powerOn c).resetSeen = false ∧
    ((State.powerOn c).trusted = true ↔ c.latency = 0)) ∧
  ∀ s t : State, step s = .next t →
    t.resetSeen = (s.resetSeen || s.nextCycle.rst) ∧
    (s.trusted = false → s.nextCycle.rst = false →
      t.rspValid = Config.unresetValid s.freeTick ∧ t.rsp = s.idleData ∧ t.freeTick = s.freeTick + 1)

/-- 70_reset_and_hazards.md section 1: with LATENCY = 0 no reset is needed after power-on. Every request that a host
presents from the first cycle on is answered in its own cycle, by Exec. -/
def Obligations.PowerOnWithoutLatencyNeedsNoReset : Prop :=
  ∀ (c : Config) (xs : List PortCycle) (k : Nat), c.latency = 0 → steadyHost c xs = true →
    ∃ t, Host.Core.run Sys2Proof.core (k + 1) { State.powerOn c with inputs := xs } = .next t ∧
      Answers c t (cycleAt xs k)
end

