-- ==== Sys2Proof/Laws/Config.lean ====
section
/-! SUPPORT. What R4 to R8 give about every legal parameter set. -/

namespace Sys2Proof

theorem mem_admittedWidths {k : Nat} (h : k ∈ admittedWidths) :
    k = 8 ∨ k = 16 ∨ k = 32 ∨ k = 64 ∨ k = 128 := by
  simpa [admittedWidths] using h

/-- The constraints of R8, taken apart. -/
theorem Config.legal_cases (c : Config) :
    c.n ∈ admittedWidths ∧ c.out ∈ admittedWidths ∧ 1 ≤ c.w ∧ c.w ∣ c.n ∧
      (c.hasDecode = true → 4 ≤ c.w ∧ 10 ^ c.lanes ≤ 2 ^ c.out) := by
  have h := c.isLegal
  simp only [Params.legal, Bool.and_eq_true, decide_eq_true_eq, List.contains_eq_mem, Bool.or_eq_true,
    Bool.not_eq_true'] at h
  refine ⟨h.1.1.1.1, h.1.1.1.2, h.1.1.2, Nat.dvd_of_mod_eq_zero h.1.2, fun hd => ?_⟩
  rcases h.2 with h2 | h2
  · simp [hd] at h2
  · exact h2

theorem Config.w_pos (c : Config) : 1 ≤ c.w := c.legal_cases.2.2.1

theorem Config.lanes_mul_w (c : Config) : c.lanes * c.w = c.n :=
  Nat.div_mul_cancel c.legal_cases.2.2.2.1

theorem Config.n_pos (c : Config) : 8 ≤ c.n := by
  have := mem_admittedWidths c.legal_cases.1
  omega

theorem Config.n_le (c : Config) : c.n ≤ 128 := by
  have := mem_admittedWidths c.legal_cases.1
  omega

theorem Config.out_le (c : Config) : c.out ≤ 128 := by
  have := mem_admittedWidths c.legal_cases.2.1
  omega

theorem Config.eight_le_out (c : Config) : 8 ≤ c.out := by
  have := mem_admittedWidths c.legal_cases.2.1
  omega

theorem Config.w_le_n (c : Config) : c.w ≤ c.n :=
  Nat.le_of_dvd (by have := c.n_pos; omega) c.legal_cases.2.2.2.1

theorem Config.lanes_le_n (c : Config) : c.lanes ≤ c.n := Nat.div_le_self _ _

/-- Lane i of a block lies within its N bits. -/
theorem Config.lane_end_le (c : Config) {i : Nat} (h : i < c.lanes) : i * c.w + c.w ≤ c.n := by
  calc i * c.w + c.w = (i + 1) * c.w := by ring
    _ ≤ c.lanes * c.w := Nat.mul_le_mul_right _ h
    _ = c.n := c.lanes_mul_w

/-- S4 of R8: a lane count fits the scalar result. -/
theorem Config.lanes_lt_out (c : Config) : c.lanes < 2 ^ c.out :=
  calc c.lanes ≤ 128 := c.lanes_le_n.trans c.n_le
    _ < 2 ^ 8 := by norm_num
    _ ≤ 2 ^ c.out := Nat.pow_le_pow_right (by norm_num) c.eight_le_out

end Sys2Proof
end

