-- ==== Sys2Proof/Laws/Bits.lean ====
section
/-! SUPPORT. The low bits of a value, and the bit counts. -/

namespace Sys2Proof

theorem lowBits_toNat {k : Nat} (hk : k ≤ 128) (x : Word) : (lowBits k x).toNat = x.toNat % 2 ^ k := by
  have h : x.toNat % 2 ^ k < 2 ^ 128 :=
    (Nat.mod_lt _ (by positivity)).trans_le (Nat.pow_le_pow_right (by norm_num) hk)
  rw [lowBits, BitVec.toNat_ofNat, Nat.mod_eq_of_lt h]

theorem lowBits_fits {k : Nat} (hk : k ≤ 128) (x : Word) : fits k (lowBits k x) = true := by
  simp only [fits, lowBits_toNat hk, decide_eq_true_eq]
  exact Nat.mod_lt _ (by positivity)

theorem lowBits_of_fits {k : Nat} {x : Word} (h : fits k x = true) : lowBits k x = x := by
  simp only [fits, decide_eq_true_eq] at h
  simp [lowBits, Nat.mod_eq_of_lt h]

theorem lowBits_lowBits {k : Nat} (hk : k ≤ 128) (x : Word) : lowBits k (lowBits k x) = lowBits k x :=
  lowBits_of_fits (lowBits_fits hk x)

@[simp] theorem zero_fits (k : Nat) : fits k 0#128 = true := by simp [fits]

theorem fits_mono {j k : Nat} (h : j ≤ k) {x : Word} (hx : fits j x = true) : fits k x = true := by
  simp only [fits, decide_eq_true_eq] at *
  exact hx.trans_le (Nat.pow_le_pow_right (by norm_num) h)

namespace Machine

/-- `ctz` is the position of the lowest set bit. -/
theorem ctz_eq_of_lowest {n x p : Nat} (hp : p < n) (hset : x.testBit p = true)
    (hclear : ∀ j < p, x.testBit j = false) : ctz n x = p := by
  induction n generalizing x p with
  | zero => omega
  | succ n ih =>
    cases p with
    | zero => simp [ctz, hset]
    | succ p =>
      have h0 : x.testBit 0 = false := hclear 0 (by omega)
      have hrec : ctz n (x / 2) = p := by
        refine ih (by omega) ?_ fun j hj => ?_
        · rw [← Nat.testBit_succ]; exact hset
        · rw [← Nat.testBit_succ]; exact hclear (j + 1) (by omega)
      simp only [ctz, h0, hrec]
      simp [Nat.add_comm]

/-- `clz` counts from the top down to the highest set bit. -/
theorem clz_eq_of_highest {n x p : Nat} (hp : p < n) (hset : x.testBit p = true)
    (hclear : ∀ j, p < j → j < n → x.testBit j = false) : clz n x = n - 1 - p := by
  induction n with
  | zero => omega
  | succ n ih =>
    by_cases hpn : p = n
    · subst hpn; simp [clz, hset]
    · have hn : x.testBit n = false := hclear n (by omega) (by omega)
      have hrec : clz n x = n - 1 - p := ih (by omega) fun j h1 h2 => hclear j h1 (by omega)
      simp only [clz, hn, hrec]
      simp only [Bool.false_eq_true, if_false]
      omega

/-- `popcount` counts the set positions. -/
theorem popcount_eq_card (n x : Nat) :
    popcount n x = ((List.range n).filter fun k => x.testBit k).length := by
  induction n with
  | zero => simp [popcount]
  | succ n ih =>
    rw [popcount, ih, List.range_succ, List.filter_append, List.length_append]
    cases h : x.testBit n <;> simp [h]

theorem popcount_le (n x : Nat) : popcount n x ≤ n := by
  rw [popcount_eq_card]
  exact (List.length_filter_le _ _).trans (by simp)

end Machine

end Sys2Proof
end

