-- ==== Sys2Proof/Laws/Decode.lean ====
section
/-! SUPPORT. What selecting and reading a request can do, said once. -/

namespace Sys2Proof

/-- Every opcode selects the operation that has it, or is reserved (R40, R45). -/
theorem selectOp_cases (c : Config) (op : BitVec 4) :
    (∃ m, selectOp c op = .ok m ∧ op = m.opcode ∧ (m = .DECODE → c.hasDecode = true)) ∨
    (selectOp c op = .error (.reservedOpcode op) ∧ (10 ≤ op.toNat ∨ (op = 0x9#4 ∧ c.hasDecode = false))) := by
  obtain ⟨k, hk, rfl⟩ : ∃ k, k < 16 ∧ op = BitVec.ofNat 4 k := ⟨op.toNat, op.isLt, by simp⟩
  cases hd : c.hasDecode <;> interval_cases k <;> simp [selectOp, hd, Mnemonic.opcode]

/-- A request decodes exactly when its opcode selects an operation, and then to what that operation reads. -/
theorem decode_ok_iff (c : Config) (q : Request) (i : Instr) :
    decode c q = .ok i ↔ ∃ m, selectOp c q.op = .ok m ∧ i = readOperands c m q := by
  unfold decode
  cases selectOp c q.op with
  | ok m => simp [eq_comm]
  | error e => simp

@[simp] theorem readOperands_mnemonic (c : Config) (m : Mnemonic) (q : Request) :
    (readOperands c m q).mnemonic = m := by
  cases m <;> rfl

@[simp] theorem encode_op (i : Instr) : (encode i).op = i.mnemonic.opcode := by
  cases i <;> rfl

end Sys2Proof
end

