-- ==== Sys2Proof/Laws/Lanes.lean ====
section
/-! SUPPORT. Lanes and packing: a packed value reads back lane by lane, and a value is known by its lanes. -/

namespace Sys2Proof.Machine

open Sys2Proof

theorem packNat_lt {w : Nat} {f : Nat → Nat} (k : Nat) (hf : ∀ i < k, f i < 2 ^ w) :
    packNat w f k < 2 ^ (k * w) := by
  induction k with
  | zero => simp [packNat]
  | succ k ih =>
    have h1 := ih fun i hi => hf i (by omega)
    have h2 : f k + 1 ≤ 2 ^ w := hf k (by omega)
    calc packNat w f k + f k * 2 ^ (k * w) < 2 ^ (k * w) + f k * 2 ^ (k * w) := by omega
      _ = (f k + 1) * 2 ^ (k * w) := by ring
      _ ≤ 2 ^ w * 2 ^ (k * w) := Nat.mul_le_mul_right _ h2
      _ = 2 ^ ((k + 1) * w) := by rw [← pow_add]; congr 1; ring

/-- Lane i of a packed sum is f(i). -/
theorem packNat_lane {w : Nat} {f : Nat → Nat} {k i : Nat} (hf : ∀ i < k, f i < 2 ^ w) (hi : i < k) :
    packNat w f k / 2 ^ (i * w) % 2 ^ w = f i := by
  induction k with
  | zero => omega
  | succ k ih =>
    have hlow := packNat_lt k fun j hj => hf j (by omega)
    by_cases hik : i = k
    · subst hik
      rw [packNat, Nat.add_mul_div_right _ _ (by positivity), Nat.div_eq_of_lt hlow, Nat.zero_add,
        Nat.mod_eq_of_lt (hf i hi)]
    · have hlt : i < k := by omega
      have hsplit : 2 ^ (k * w) = 2 ^ w * 2 ^ ((k - i - 1) * w) * 2 ^ (i * w) := by
        rw [← pow_add, ← pow_add]
        congr 1
        obtain ⟨d, rfl⟩ : ∃ d, k = i + 1 + d := ⟨k - i - 1, by omega⟩
        have : i + 1 + d - i - 1 = d := by omega
        rw [this]; ring
      rw [packNat, hsplit, ← Nat.mul_assoc, Nat.add_mul_div_right _ _ (by positivity),
        show f k * (2 ^ w * 2 ^ ((k - i - 1) * w)) = 2 ^ w * (f k * 2 ^ ((k - i - 1) * w)) by ring,
        Nat.add_mul_mod_self_left, ih (fun j hj => hf j (by omega)) hlt]

/-- A number of `k` lanes is the packing of its lanes. -/
theorem packNat_of_lanes {w x : Nat} (k : Nat) :
    packNat w (fun i => x / 2 ^ (i * w) % 2 ^ w) k = x % 2 ^ (k * w) := by
  induction k with
  | zero => simp [packNat, Nat.mod_one]
  | succ k ih =>
    rw [packNat, ih, show (k + 1) * w = k * w + w by ring, pow_add, Nat.mod_mul]
    ring

theorem packNat_congr {w : Nat} {f g : Nat → Nat} {k : Nat} (h : ∀ i < k, f i = g i) :
    packNat w f k = packNat w g k := by
  induction k with
  | zero => rfl
  | succ k ih => rw [packNat, packNat, ih fun i hi => h i (by omega), h k (by omega)]

theorem pack_toNat (c : Config) {f : Nat → Nat} (hf : ∀ i < c.lanes, f i < 2 ^ c.w) :
    (pack c f).toNat = packNat c.w f c.lanes := by
  have h := packNat_lt c.lanes hf
  rw [c.lanes_mul_w] at h
  have : packNat c.w f c.lanes < 2 ^ 128 := h.trans_le (Nat.pow_le_pow_right (by norm_num) c.n_le)
  rw [pack, BitVec.toNat_ofNat, Nat.mod_eq_of_lt this]

/-- `lane(pack(f), i) = f(i)`. -/
theorem lane_pack (c : Config) {f : Nat → Nat} (hf : ∀ i < c.lanes, f i < 2 ^ c.w) {i : Nat}
    (hi : i < c.lanes) : lane c (pack c f) i = f i := by
  rw [lane, laneOf, pack_toNat c hf, packNat_lane hf hi]

/-- A packed value has N bits. -/
theorem pack_fits (c : Config) {f : Nat → Nat} (hf : ∀ i < c.lanes, f i < 2 ^ c.w) :
    fits c.n (pack c f) = true := by
  have h := packNat_lt c.lanes hf
  rw [c.lanes_mul_w] at h
  simpa [fits, pack_toNat c hf] using h

theorem lane_lt (c : Config) (x : Word) (i : Nat) : lane c x i < 2 ^ c.w := Nat.mod_lt _ (by positivity)

/-- An N-bit value is the packing of its lanes. -/
theorem pack_lanes (c : Config) {x : Word} (hx : fits c.n x = true) : pack c (lane c x) = x := by
  apply BitVec.eq_of_toNat_eq
  rw [pack_toNat c fun i _ => lane_lt c x i]
  simp only [fits, decide_eq_true_eq] at hx
  have h := packNat_of_lanes (w := c.w) (x := x.toNat) c.lanes
  rw [c.lanes_mul_w, Nat.mod_eq_of_lt hx] at h
  exact h

/-- Two N-bit values with the same lanes are the same value. -/
theorem eq_of_lanes_eq (c : Config) {x y : Word} (hx : fits c.n x = true) (hy : fits c.n y = true)
    (h : ∀ i < c.lanes, lane c x i = lane c y i) : x = y := by
  rw [← pack_lanes c hx, ← pack_lanes c hy, pack, pack, packNat_congr h]

/-- The lanes of a value are those of its low N bits. -/
theorem lane_lowBits (c : Config) (x : Word) {i : Nat} (hi : i < c.lanes) :
    lane c (lowBits c.n x) i = lane c x i := by
  rw [lane, laneOf, lane, laneOf, lowBits_toNat c.n_le]
  have hsum : i * c.w + c.w ≤ c.n := c.lane_end_le hi
  apply Nat.eq_of_testBit_eq
  intro j
  simp only [Nat.testBit_mod_two_pow, Nat.testBit_div_two_pow]
  by_cases hj : j < c.w
  · simp [hj, show j + i * c.w < c.n by omega]
  · simp [hj]

/-- Lane i's designated bit is the top bit of its lane value. -/
theorem hit_eq_lane_testBit (c : Config) (x : Word) (i : Nat) :
    hit c x i = (lane c x i).testBit (c.w - 1) := by
  have hw := c.w_pos
  rw [hit, top, lane, laneOf, Nat.testBit_mod_two_pow, Nat.testBit_div_two_pow]
  simp [show c.w - 1 < c.w by omega, show i * c.w + c.w - 1 = c.w - 1 + i * c.w by omega]

theorem hitLane_lt (c : Config) (held : Bool) : hitLane c held < 2 ^ c.w := by
  have hw := c.w_pos
  unfold hitLane
  split
  · exact Nat.pow_lt_pow_right (by norm_num) (by omega)
  · positivity

/-- Lane i of a hit mask. -/
theorem lane_hitMask (c : Config) (p : Nat → Nat → Bool) (a b : Word) {i : Nat} (hi : i < c.lanes) :
    lane c (hitMask c p a b) i = hitLane c (p (lane c a i) (lane c b i)) :=
  lane_pack c (fun _ _ => hitLane_lt c _) hi

/-- The designated bit of lane i of a hit mask is the predicate (R60). -/
theorem hit_hitMask (c : Config) (p : Nat → Nat → Bool) (a b : Word) {i : Nat} (hi : i < c.lanes) :
    hit c (hitMask c p a b) i = p (lane c a i) (lane c b i) := by
  rw [hit_eq_lane_testBit, lane_hitMask c p a b hi, hitLane]
  cases p (lane c a i) (lane c b i) <;> simp

theorem hitMask_fits (c : Config) (p : Nat → Nat → Bool) (a b : Word) :
    fits c.n (hitMask c p a b) = true :=
  pack_fits c fun _ _ => hitLane_lt c _

theorem lane_marker (c : Config) {i : Nat} (hi : i < c.lanes) : lane c (marker c) i = 2 ^ (c.w - 1) :=
  lane_pack c (fun _ _ => hitLane_lt c true) hi

theorem marker_fits (c : Config) : fits c.n (marker c) = true := pack_fits c fun _ _ => hitLane_lt c true

/-- Every bit of an N-bit value is a bit of one of its lanes. -/
theorem testBit_eq_lane_testBit (c : Config) {x : Word} (hx : fits c.n x = true) (k : Nat) :
    x.toNat.testBit k = (decide (k < c.n) && (lane c x (k / c.w)).testBit (k % c.w)) := by
  have hw := c.w_pos
  by_cases h : k < c.n
  · have hk : k % c.w + k / c.w * c.w = k := by rw [Nat.mul_comm]; exact Nat.mod_add_div k c.w
    rw [lane, laneOf, Nat.testBit_mod_two_pow, Nat.testBit_div_two_pow]
    simp [h, Nat.mod_lt k hw, hk]
  · simp only [fits, decide_eq_true_eq] at hx
    simpa [h] using
      Nat.testBit_lt_two_pow (hx.trans_le (Nat.pow_le_pow_right (by norm_num) (Nat.not_lt.1 h)))

/-- The lane that a bit position below N lies in. -/
theorem div_w_lt_lanes (c : Config) {k : Nat} (h : k < c.n) : k / c.w < c.lanes := by
  rw [Nat.div_lt_iff_lt_mul c.w_pos, c.lanes_mul_w]
  exact h

theorem top_eq (c : Config) (i : Nat) : top c i = (c.w - 1) + c.w * i := by
  have hw := c.w_pos
  rw [top, Nat.mul_comm c.w i]
  omega

theorem top_lt (c : Config) {i : Nat} (hi : i < c.lanes) : top c i < c.n := by
  have hw := c.w_pos
  have hend := c.lane_end_le hi
  unfold top
  omega

/-- (i·W + W − 1) div W = i (R64, R65). -/
theorem top_div_w (c : Config) (i : Nat) : top c i / c.w = i := by
  have hw := c.w_pos
  rw [top_eq, Nat.add_mul_div_left _ _ hw, Nat.div_eq_of_lt (by omega), Nat.zero_add]

theorem top_mod_w (c : Config) (i : Nat) : top c i % c.w = c.w - 1 := by
  have hw := c.w_pos
  rw [top_eq, Nat.add_mul_mod_self_left, Nat.mod_eq_of_lt (by omega)]

theorem top_lt_top (c : Config) {i j : Nat} : top c i < top c j ↔ i < j := by
  have hw := c.w_pos
  rw [top_eq, top_eq, Nat.add_lt_add_iff_left, Nat.mul_lt_mul_left hw]

/-- The marker mask holds the designated bits and no others (R50). -/
theorem testBit_marker (c : Config) (k : Nat) :
    (marker c).toNat.testBit k = true ↔ ∃ i, i < c.lanes ∧ k = top c i := by
  rw [testBit_eq_lane_testBit c (marker_fits c)]
  constructor
  · intro h
    simp only [Bool.and_eq_true, decide_eq_true_eq] at h
    have hi := div_w_lt_lanes c h.1
    rw [lane_marker c hi, Nat.testBit_two_pow, decide_eq_true_eq] at h
    refine ⟨k / c.w, hi, ?_⟩
    rw [top_eq, h.2, Nat.mod_add_div]
  · rintro ⟨i, hi, rfl⟩
    rw [top_div_w, top_mod_w, lane_marker c hi]
    simp [top_lt c hi]

/-- Masking keeps exactly the designated bits (R67). -/
theorem testBit_maskedHits (c : Config) (x : Word) (k : Nat) :
    (maskedHits c x).toNat.testBit k = true ↔ ∃ i, i < c.lanes ∧ k = top c i ∧ hit c x i = true := by
  rw [maskedHits, BitVec.toNat_and, Nat.testBit_and, Bool.and_eq_true, testBit_marker]
  constructor
  · rintro ⟨hx, i, hi, rfl⟩
    exact ⟨i, hi, rfl, hx⟩
  · rintro ⟨i, hi, rfl, hx⟩
    exact ⟨hx, i, hi, rfl⟩

/-- "No match" is that no lane is hit (R64, R65). -/
theorem noLaneHit_iff (c : Config) (x : Word) : noLaneHit c x = true ↔ ∀ i, i < c.lanes → hit c x i = false := by
  rw [noLaneHit, beq_iff_eq]
  constructor
  · intro h i hi
    by_contra hne
    have : (maskedHits c x).toNat.testBit (top c i) = true :=
      (testBit_maskedHits c x _).2 ⟨i, hi, rfl, by simpa using hne⟩
    simp [h] at this
  · intro h
    apply BitVec.eq_of_getLsbD_eq
    intro k _
    simp only [BitVec.getLsbD]
    by_contra hne
    have hk : (maskedHits c x).toNat.testBit k = true := by simpa using hne
    obtain ⟨i, hi, -, hx⟩ := (testBit_maskedHits c x k).1 hk
    simp [h i hi] at hx

end Sys2Proof.Machine
end

