-- ==== Sys2Proof/Laws/Decode10.lean ====
section
/-! SUPPORT. The decimal value of digit lanes. -/

namespace Sys2Proof.Machine

open Sys2Proof

theorem inDomain_iff (c : Config) (a : Word) : inDomain c a = true ↔ ∀ k, k < c.lanes → lane c a k ≤ 9 := by
  simp [inDomain]

/-- The recursion is the sum of R72. -/
theorem digitSum_eq_sum (c : Config) (a : Word) (k : Nat) :
    digitSum c a k = ((List.range k).map fun j => lane c a j * 10 ^ j).sum := by
  induction k with
  | zero => rfl
  | succ k ih => rw [digitSum, ih, List.range_succ]; simp

/-- k digits stay below 10^k (R71). -/
theorem digitSum_lt (c : Config) (a : Word) (k : Nat) (h : ∀ j < k, lane c a j ≤ 9) :
    digitSum c a k < 10 ^ k := by
  induction k with
  | zero => simp [digitSum]
  | succ k ih =>
    have hlow := ih fun j hj => h j (by omega)
    have hdigit := Nat.mul_le_mul_right (10 ^ k) (h k (by omega))
    rw [digitSum, pow_succ]
    omega

end Sys2Proof.Machine
end

