-- ==== Sys2Proof/Laws/State.lean ====
section
/-! SUPPORT. What each update of the state leaves in each field. -/

namespace Sys2Proof.Machine

open Sys2Proof

@[simp] theorem State.consumed_cfg (s : State) : s.consumed.cfg = s.cfg := rfl
@[simp] theorem State.consumed_inputs (s : State) : s.consumed.inputs = s.inputs.tail := rfl
@[simp] theorem State.consumed_pipe (s : State) : s.consumed.pipe = s.pipe := rfl
@[simp] theorem State.consumed_rspValid (s : State) : s.consumed.rspValid = s.rspValid := rfl
@[simp] theorem State.consumed_rsp (s : State) : s.consumed.rsp = s.rsp := rfl
@[simp] theorem State.consumed_resetSeen (s : State) : s.consumed.resetSeen = s.resetSeen := rfl
@[simp] theorem State.consumed_freeTick (s : State) : s.consumed.freeTick = s.freeTick := rfl

@[simp] theorem State.showResponse_cfg (s : State) (q : Response) : (s.showResponse q).cfg = s.cfg := rfl
@[simp] theorem State.showResponse_inputs (s : State) (q : Response) : (s.showResponse q).inputs = s.inputs := rfl
@[simp] theorem State.showResponse_pipe (s : State) (q : Response) : (s.showResponse q).pipe = s.pipe := rfl
@[simp] theorem State.showResponse_rspValid (s : State) (q : Response) : (s.showResponse q).rspValid = true := rfl
@[simp] theorem State.showResponse_rsp (s : State) (q : Response) : (s.showResponse q).rsp = q := rfl
@[simp] theorem State.showResponse_resetSeen (s : State) (q : Response) : (s.showResponse q).resetSeen = s.resetSeen := rfl
@[simp] theorem State.showResponse_freeTick (s : State) (q : Response) : (s.showResponse q).freeTick = s.freeTick := rfl

@[simp] theorem State.showNothing_cfg (s : State) : (s.showNothing).cfg = s.cfg := rfl
@[simp] theorem State.showNothing_inputs (s : State) : (s.showNothing).inputs = s.inputs := rfl
@[simp] theorem State.showNothing_pipe (s : State) : (s.showNothing).pipe = s.pipe := rfl
@[simp] theorem State.showNothing_rspValid (s : State) : (s.showNothing).rspValid = false := rfl
@[simp] theorem State.showNothing_rsp (s : State) : (s.showNothing).rsp = s.idleData := rfl
@[simp] theorem State.showNothing_resetSeen (s : State) : (s.showNothing).resetSeen = s.resetSeen := rfl
@[simp] theorem State.showNothing_freeTick (s : State) : (s.showNothing).freeTick = s.freeTick + 1 := rfl

@[simp] theorem State.showUnknown_cfg (s : State) : (s.showUnknown).cfg = s.cfg := rfl
@[simp] theorem State.showUnknown_inputs (s : State) : (s.showUnknown).inputs = s.inputs := rfl
@[simp] theorem State.showUnknown_pipe (s : State) : (s.showUnknown).pipe = s.pipe := rfl
@[simp] theorem State.showUnknown_rspValid (s : State) : (s.showUnknown).rspValid = Config.unresetValid s.freeTick := rfl
@[simp] theorem State.showUnknown_rsp (s : State) : (s.showUnknown).rsp = s.idleData := rfl
@[simp] theorem State.showUnknown_resetSeen (s : State) : (s.showUnknown).resetSeen = s.resetSeen := rfl
@[simp] theorem State.showUnknown_freeTick (s : State) : (s.showUnknown).freeTick = s.freeTick + 1 := rfl

@[simp] theorem State.flush_cfg (s : State) : (s.flush).cfg = s.cfg := rfl
@[simp] theorem State.flush_inputs (s : State) : (s.flush).inputs = s.inputs := rfl
@[simp] theorem State.flush_pipe (s : State) : (s.flush).pipe = List.replicate s.cfg.latency none := rfl
@[simp] theorem State.flush_rspValid (s : State) : (s.flush).rspValid = false := rfl
@[simp] theorem State.flush_rsp (s : State) : (s.flush).rsp = s.idleData := rfl
@[simp] theorem State.flush_resetSeen (s : State) : (s.flush).resetSeen = true := rfl
@[simp] theorem State.flush_freeTick (s : State) : (s.flush).freeTick = s.freeTick + 1 := rfl

@[simp] theorem State.resetOf_cfg (c : Config) : (State.resetOf c).cfg = c := rfl
@[simp] theorem State.resetOf_inputs (c : Config) : (State.resetOf c).inputs = [] := rfl
@[simp] theorem State.resetOf_pipe (c : Config) : (State.resetOf c).pipe = List.replicate c.latency none := rfl
@[simp] theorem State.resetOf_rspValid (c : Config) : (State.resetOf c).rspValid = false := rfl
@[simp] theorem State.resetOf_rsp (c : Config) : (State.resetOf c).rsp = ⟨0, 0, false⟩ := rfl
@[simp] theorem State.resetOf_resetSeen (c : Config) : (State.resetOf c).resetSeen = true := rfl
@[simp] theorem State.resetOf_freeTick (c : Config) : (State.resetOf c).freeTick = 0 := rfl

@[simp] theorem State.consumed_trusted (s : State) : s.consumed.trusted = s.trusted := rfl
@[simp] theorem State.flush_trusted (s : State) : s.flush.trusted = true := by simp [State.trusted]
@[simp] theorem State.resetOf_trusted (c : Config) : (State.resetOf c).trusted = true := by simp [State.trusted]

/-- Where the ports can be trusted they show what the slot holds. -/
theorem State.drive_of_trusted {s : State} (h : s.trusted = true) (slot : Option Response) :
    s.drive slot = match slot with
      | some q => s.showResponse q
      | none => s.showNothing := by
  cases slot <;> simp [State.drive, h]

/-- Before the first reset of a block with LATENCY > 0 the ports show unknown values, whatever the slot. -/
theorem State.drive_of_untrusted {s : State} (h : s.trusted = false) (slot : Option Response) :
    s.drive slot = s.showUnknown := by
  simp [State.drive, h]

/-- Everything that driving the port can be. -/
theorem State.drive_cases (s : State) (slot : Option Response) :
    (s.trusted = true ∧ ∃ q, slot = some q ∧ s.drive slot = s.showResponse q) ∨
    (s.trusted = true ∧ slot = none ∧ s.drive slot = s.showNothing) ∨
    (s.trusted = false ∧ s.drive slot = s.showUnknown) := by
  cases ht : s.trusted with
  | false => exact .inr (.inr ⟨rfl, State.drive_of_untrusted ht slot⟩)
  | true =>
    cases slot with
    | some q => exact .inl ⟨rfl, q, rfl, State.drive_of_trusted ht _⟩
    | none => exact .inr (.inl ⟨rfl, rfl, State.drive_of_trusted ht _⟩)

@[simp] theorem State.drive_cfg (s : State) (slot : Option Response) : (s.drive slot).cfg = s.cfg := by
  rcases s.drive_cases slot with ⟨-, q, -, h⟩ | ⟨-, -, h⟩ | ⟨-, h⟩ <;> simp [h]
@[simp] theorem State.drive_inputs (s : State) (slot : Option Response) : (s.drive slot).inputs = s.inputs := by
  rcases s.drive_cases slot with ⟨-, q, -, h⟩ | ⟨-, -, h⟩ | ⟨-, h⟩ <;> simp [h]
@[simp] theorem State.drive_pipe (s : State) (slot : Option Response) : (s.drive slot).pipe = s.pipe := by
  rcases s.drive_cases slot with ⟨-, q, -, h⟩ | ⟨-, -, h⟩ | ⟨-, h⟩ <;> simp [h]
@[simp] theorem State.drive_resetSeen (s : State) (slot : Option Response) :
    (s.drive slot).resetSeen = s.resetSeen := by
  rcases s.drive_cases slot with ⟨-, q, -, h⟩ | ⟨-, -, h⟩ | ⟨-, h⟩ <;> simp [h]

@[simp] theorem State.clock_cfg (s : State) (arrival : Option Response) : (s.clock arrival).cfg = s.cfg := by
  simp [State.clock]
@[simp] theorem State.clock_inputs (s : State) (arrival : Option Response) :
    (s.clock arrival).inputs = s.inputs := by
  simp [State.clock]
@[simp] theorem State.clock_pipe (s : State) (arrival : Option Response) :
    (s.clock arrival).pipe = (s.pipe ++ [arrival]).tail := by
  simp [State.clock]
@[simp] theorem State.clock_resetSeen (s : State) (arrival : Option Response) :
    (s.clock arrival).resetSeen = s.resetSeen := by
  simp [State.clock]
@[simp] theorem State.clock_trusted (s : State) (arrival : Option Response) :
    (s.clock arrival).trusted = s.trusted := by
  simp [State.trusted]

@[simp] theorem State.powerOn_cfg (c : Config) : (State.powerOn c).cfg = c := by
  simp [State.powerOn, powerOnStorage]
@[simp] theorem State.powerOn_inputs (c : Config) : (State.powerOn c).inputs = [] := by
  simp [State.powerOn, powerOnStorage]
@[simp] theorem State.powerOn_pipe (c : Config) :
    (State.powerOn c).pipe = (List.range c.latency).map (powerOnSlot c) := by
  simp [State.powerOn, powerOnStorage]
@[simp] theorem State.powerOn_resetSeen (c : Config) : (State.powerOn c).resetSeen = false := by
  simp [State.powerOn, powerOnStorage]
/-- At power-on only a block that stores nothing can be trusted (R89). -/
@[simp] theorem State.powerOn_trusted (c : Config) : (State.powerOn c).trusted = decide (c.latency = 0) := by
  simp [State.trusted]

end Sys2Proof.Machine
end

