-- ==== Sys2Proof/Laws/Ops.lean ====
section
/-! SUPPORT. Once for each shared operation: everything it can do. -/

namespace Sys2Proof.Machine

open Sys2Proof

/-- Driving the port delivers the slot. -/
theorem State.drive_delivers (s : State) (slot : Option Response) : Delivers s (s.drive slot) slot := by
  unfold Delivers
  rcases s.drive_cases slot with ⟨ht, q, rfl, h⟩ | ⟨ht, rfl, h⟩ | ⟨ht, h⟩ <;> simp [ht, h]

/-- Everything one cycle without reset does. -/
theorem State.clock_clocked (s : State) (arrival : Option Response) : Clocked s (s.clock arrival) arrival := by
  refine ⟨by simp, by simp, by simp, (s.pipe ++ [arrival]).headD arrival, ?_, ?_⟩
  · cases h : s.pipe <;> simp [h]
  · exact State.drive_delivers { s with pipe := (s.pipe ++ [arrival]).tail } _

/-- Everything a cycle that accepts a request does. -/
theorem State.accept_accepted (s : State) (q : Response) : Accepted s (s.accept q) q := s.clock_clocked _

/-- Everything a cycle without a request does. -/
theorem State.idle_clocked (s : State) : Clocked s s.idle none := s.clock_clocked _

/-- One cycle keeps the number of slots. -/
theorem clocked_pipe_length {s t : State} {arrival : Option Response} (h : Clocked s t arrival) :
    t.pipe.length = s.pipe.length := by
  obtain ⟨-, -, -, slot, hpipe, -⟩ := h
  have := congrArg List.length hpipe
  simpa using this.symm

theorem Response.fitsPorts_of_whole {c : Config} {q : Response} (h : q.whole c = true) : q.fitsPorts c = true := by
  simp only [Response.whole, Response.fitsPorts, Bool.and_eq_true] at *
  exact h.1

theorem State.idleData_fitsPorts (s : State) : s.idleData.fitsPorts s.cfg = true := by
  simp [Response.fitsPorts, State.idleData, lowBits_fits s.cfg.n_le, lowBits_fits s.cfg.out_le]

/-- What whole says, taken apart. -/
theorem State.whole_iff (s : State) : s.whole = true ↔
    s.pipe.length = s.cfg.latency ∧ (∀ x ∈ s.pipe, slotFits s.cfg x = true) ∧ s.rsp.fitsPorts s.cfg = true ∧
      (s.trusted = true → (∀ x ∈ s.pipe, slotWhole s.cfg x = true) ∧
        (s.rspValid = true → s.rsp.whole s.cfg = true)) := by
  cases ht : s.trusted <;> cases hv : s.rspValid <;> simp [State.whole, ht, hv, and_assoc]

theorem slotFits_of_whole {c : Config} {x : Option Response} (h : slotWhole c x = true) : slotFits c x = true := by
  cases x with
  | some q => exact Response.fitsPorts_of_whole h
  | none => rfl

/-- Driving the port with a slot that is whole wherever the ports can be trusted keeps a state's slots whole. -/
theorem State.drive_whole (s : State) (slot : Option Response) (hlen : s.pipe.length = s.cfg.latency)
    (hfits : ∀ x ∈ s.pipe, slotFits s.cfg x = true)
    (hpipe : s.trusted = true → (∀ x ∈ s.pipe, slotWhole s.cfg x = true) ∧ slotWhole s.cfg slot = true) :
    (s.drive slot).whole = true := by
  rw [State.whole_iff]
  have htr : (s.drive slot).trusted = s.trusted := by simp [State.trusted]
  rw [htr, State.drive_pipe, State.drive_cfg]
  rcases s.drive_cases slot with ⟨ht, q, rfl, h⟩ | ⟨ht, rfl, h⟩ | ⟨ht, h⟩ <;> rw [h]
  · have hq : q.whole s.cfg = true := (hpipe ht).2
    exact ⟨hlen, hfits, Response.fitsPorts_of_whole hq, fun _ => ⟨(hpipe ht).1, fun _ => hq⟩⟩
  · exact ⟨hlen, hfits, s.idleData_fitsPorts, fun _ => ⟨(hpipe ht).1, fun hv => Bool.noConfusion hv⟩⟩
  · exact ⟨hlen, hfits, s.idleData_fitsPorts, fun ht' => by simp [ht] at ht'⟩

/-- A cycle without reset keeps a whole state whole, if what arrives is whole. -/
theorem State.clock_whole (s : State) (arrival : Option Response) (hs : s.whole = true)
    (harr : slotWhole s.cfg arrival = true) : (s.clock arrival).whole = true := by
  obtain ⟨hlen, hfits, -, hpipe⟩ := s.whole_iff.1 hs
  have hall : ∀ P : Option Response → Prop, (∀ x ∈ s.pipe, P x) → P arrival → ∀ y ∈ s.pipe ++ [arrival], P y := by
    intro P h1 h2 y hy
    rcases List.mem_append.1 hy with h | h
    · exact h1 y h
    · rw [List.mem_singleton.1 h]; exact h2
  refine State.drive_whole _ _ (by simp [hlen])
    (fun y hy => hall _ hfits (slotFits_of_whole harr) y (List.mem_of_mem_tail hy)) fun ht => ⟨?_, ?_⟩
  · exact fun y hy => hall _ (hpipe ht).1 harr y (List.mem_of_mem_tail hy)
  · refine hall _ (hpipe ht).1 harr _ ?_
    cases s.pipe <;> simp

/-- A cycle of reset makes any state whole. -/
theorem State.flush_whole (s : State) : s.flush.whole = true := by
  rw [State.whole_iff]
  have hnone : ∀ x ∈ s.flush.pipe, x = none := fun x hx => (List.mem_replicate.1 hx).2
  exact ⟨by simp, fun x hx => by rw [hnone x hx]; rfl, s.idleData_fitsPorts,
    fun _ => ⟨fun x hx => by rw [hnone x hx]; rfl, fun hv => Bool.noConfusion hv⟩⟩

/-- What is unknown in flight at power-on has the ports' widths. -/
theorem powerOnSlot_fits (c : Config) (k : Nat) : slotFits c (powerOnSlot c k) = true := by
  unfold powerOnSlot
  split
  · simp [slotFits, Response.fitsPorts, lowBits_fits c.n_le, lowBits_fits c.out_le]
  · rfl

theorem laneResponse_whole {c : Config} {r : Word} (h : fits c.n r = true) : (laneResponse r).whole c = true := by
  simp [Response.whole, laneResponse, h]

theorem scalarResponse_whole (c : Config) (v : Nat) : (scalarResponse c v).whole c = true := by
  simp [Response.whole, scalarResponse, lowBits_fits c.out_le]

theorem noMatchResponse_whole (c : Config) : noMatchResponse.whole c = true := by
  simp [Response.whole, noMatchResponse]

theorem reservedResponse_whole (c : Config) : reservedResponse.whole c = true := by
  simp [Response.whole, reservedResponse]

/-- A scalar below 2^OUT arrives as it is (R18). -/
theorem scalarResponse_s_toNat {c : Config} {v : Nat} (hv : v < 2 ^ c.out) : (scalarResponse c v).s.toNat = v := by
  have hw : v < 2 ^ 128 := hv.trans_le (Nat.pow_le_pow_right (by norm_num) c.out_le)
  rw [scalarResponse, lowBits_toNat c.out_le, BitVec.toNat_ofNat, Nat.mod_eq_of_lt hw, Nat.mod_eq_of_lt hv]

end Sys2Proof.Machine
end

