-- ==== Sys2Proof/Laws/PerInstr.lean ====
section
/-! SUPPORT. One lemma for each constructor of Instr: the operand fields of a well-formed instruction's request have N
bits (30_encoding.md R37). -/

namespace Sys2Proof.Laws.FieldsFit

open Sys2Proof

/-- The fields `a` and `b` of the encoding have N bits on every block where the instruction is well formed. -/
def Statement (i : Instr) : Prop :=
  ∀ c : Config, i.wellFormed c = true → fits c.n (encode i).a = true ∧ fits c.n (encode i).b = true

theorem bcast (v : Word) : Statement (.bcast v) := fun c h =>
  ⟨fits_mono c.w_le_n h, zero_fits c.n⟩

theorem msbs : Statement .msbs := fun c _ => ⟨zero_fits c.n, zero_fits c.n⟩

theorem add (a b : Word) : Statement (.add a b) := fun c h => by
  simpa [Instr.wellFormed, encode] using h

theorem sub (a b : Word) : Statement (.sub a b) := fun c h => by
  simpa [Instr.wellFormed, encode] using h

theorem cmpeq (a b : Word) : Statement (.cmpeq a b) := fun c h => by
  simpa [Instr.wellFormed, encode] using h

theorem cmplt (a b : Word) : Statement (.cmplt a b) := fun c h => by
  simpa [Instr.wellFormed, encode] using h

theorem ffs (a : Word) : Statement (.ffs a) := fun c h => ⟨h, zero_fits c.n⟩

theorem fls (a : Word) : Statement (.fls a) := fun c h => ⟨h, zero_fits c.n⟩

theorem popc (a : Word) : Statement (.popc a) := fun c h => ⟨h, zero_fits c.n⟩

theorem decode (a : Word) : Statement (.decode a) := fun c h => by
  simp only [Instr.wellFormed, Bool.and_eq_true] at h
  exact ⟨h.2, zero_fits c.n⟩

end Sys2Proof.Laws.FieldsFit
end

