-- ==== Sys2Proof/Laws/Step.lean ====
section
/-! SUPPORT. What exec and the step can do, said once. -/

namespace Sys2Proof.Machine

open Sys2Proof

/-- A next state of exec is the cycle that accepts the instruction's response. -/
theorem exec_next_accepts {i : Instr} {s t : State} (h : exec i s = .next t) :
    t = s.accept (respond s.cfg i) := by
  cases i with
  | decode a =>
    simp only [exec, execDecode] at h
    split at h
    · exact (Host.Outcome.next.inj h).symm
    · exact Host.Outcome.noConfusion rfl rfl rfl (heq_of_eq h)
  | _ => exact (Host.Outcome.next.inj h).symm

/-- exec answers no next state only for DECODE on a block without a decoder. -/
theorem exec_next_or_no_decoder (i : Instr) (s : State) :
    exec i s = .next (s.accept (respond s.cfg i)) ∨
      (i.mnemonic = .DECODE ∧ s.cfg.hasDecode = false ∧ exec i s = .refused (.reservedOpcode 0x9#4)) := by
  cases i with
  | decode a =>
    cases hd : s.cfg.hasDecode with
    | true => exact .inl (by simp [exec, execDecode, hd, respond])
    | false => exact .inr ⟨rfl, rfl, by simp [exec, execDecode, hd, Mnemonic.opcode]⟩
  | _ => exact .inl rfl

/-- Everything a step that answers a next state can have done: a cycle of reset, a cycle without a request, or a
cycle that accepted a decoded instruction. -/
theorem step_next_cases {s t : State} (h : step s = .next t) :
    (s.nextCycle.rst = true ∧ t = s.consumed.flush) ∨
    (s.nextCycle.rst = false ∧ s.nextCycle.valid = false ∧ t = s.consumed.idle) ∨
    (s.nextCycle.rst = false ∧ s.nextCycle.valid = true ∧
      ∃ i, decode s.cfg s.nextCycle.req = .ok i ∧ t = s.consumed.accept (respond s.cfg i)) := by
  simp only [step] at h
  split at h
  · next hr => exact .inl ⟨hr, (Host.Outcome.next.inj h).symm⟩
  · next hr =>
    have hr' : s.nextCycle.rst = false := by simpa using hr
    split at h
    · next hv =>
      split at h
      · next i hi =>
        refine .inr (.inr ⟨hr', hv, i, hi, ?_⟩)
        have := exec_next_accepts h
        rwa [State.consumed_cfg] at this
      · next => exact Host.Outcome.noConfusion rfl rfl rfl (heq_of_eq h)
    · next hv => exact .inr (.inl ⟨hr', by simpa using hv, (Host.Outcome.next.inj h).symm⟩)

/-- A run whose first step answers a next state goes on from there. -/
theorem run_of_step_next {s s' : State} (h : step s = .next s') (k : Nat) :
    Host.Core.run Sys2Proof.core (k + 1) s = Host.Core.run Sys2Proof.core k s' := by
  simp only [Host.Core.run]
  rw [show Sys2Proof.core.step s = .next s' from h]

end Sys2Proof.Machine
end

