-- ==== Sys2Proof/Laws/Respond.lean ====
section
/-! SUPPORT. Every response has the ports' widths and zero fields where its rule writes none (10_state.md R18, R20). -/

namespace Sys2Proof.Machine

open Sys2Proof

theorem laneSum_lt (w x y : Nat) : laneSum w x y < 2 ^ w := Nat.mod_lt _ (by positivity)

theorem laneDifference_eq (w x y : Nat) (hy : y < 2 ^ w) :
    laneDifference w x y = (x + 2 ^ w - y) % 2 ^ w := by
  have h : ((x : Int) - y) % ((2 ^ w : Nat) : Int) = (((x + 2 ^ w - y) % 2 ^ w : Nat) : Int) := by
    rw [Int.natCast_mod, Int.ofNat_sub (by omega), Int.natCast_add,
      show (x : Int) + ((2 ^ w : Nat) : Int) - y = (x - y) + ((2 ^ w : Nat) : Int) by ring, Int.add_emod_right]
  rw [laneDifference, h, Int.toNat_natCast]

theorem laneDifference_lt {w x y : Nat} (hy : y < 2 ^ w) : laneDifference w x y < 2 ^ w := by
  rw [laneDifference_eq w x y hy]
  exact Nat.mod_lt _ (by positivity)

theorem lane_addLanes (c : Config) (a b : Word) {i : Nat} (hi : i < c.lanes) :
    lane c (addLanes c a b) i = laneSum c.w (lane c a i) (lane c b i) :=
  lane_pack c (fun _ _ => laneSum_lt _ _ _) hi

theorem lane_subLanes (c : Config) (a b : Word) {i : Nat} (hi : i < c.lanes) :
    lane c (subLanes c a b) i = laneDifference c.w (lane c a i) (lane c b i) :=
  lane_pack c (fun _ _ => laneDifference_lt (lane_lt _ _ _)) hi

theorem addLanes_fits (c : Config) (a b : Word) : fits c.n (addLanes c a b) = true :=
  pack_fits c fun _ _ => laneSum_lt _ _ _

theorem subLanes_fits (c : Config) (a b : Word) : fits c.n (subLanes c a b) = true :=
  pack_fits c fun _ _ => laneDifference_lt (lane_lt _ _ _)

theorem broadcast_fits (c : Config) (v : Word) : fits c.n (broadcast c v) = true :=
  pack_fits c fun _ _ => Nat.mod_lt _ (by positivity)

/-- The response to any instruction is whole. -/
theorem respond_whole (c : Config) (i : Instr) : (respond c i).whole c = true := by
  cases i with
  | bcast v => exact laneResponse_whole (broadcast_fits c v)
  | msbs => exact laneResponse_whole (marker_fits c)
  | add a b => exact laneResponse_whole (addLanes_fits c a b)
  | sub a b => exact laneResponse_whole (subLanes_fits c a b)
  | cmpeq a b => exact laneResponse_whole (hitMask_fits c _ a b)
  | cmplt a b => exact laneResponse_whole (hitMask_fits c _ a b)
  | ffs a =>
    simp only [respond, respFfs]
    split
    · exact noMatchResponse_whole c
    · exact scalarResponse_whole c _
  | fls a =>
    simp only [respond, respFls]
    split
    · exact noMatchResponse_whole c
    · exact scalarResponse_whole c _
  | popc a => exact scalarResponse_whole c _
  | decode a =>
    simp only [respond, respDecode]
    split <;> exact scalarResponse_whole c _

end Sys2Proof.Machine
end

