-- ==== Sys2Proof/Tests/Slice0.lean ====
section
/-!
SUPPORT. Small tests, each on fixed values whose expected result stands in spec/95_test_vectors.md or is worked out by
hand from the rule it names, and witnesses for the hypotheses of the statements.
-/

namespace Sys2Proof.Tests

open Sys2Proof Sys2Proof.Machine

/-! ### The configurations of 95_test_vectors.md section 0 -/

/-- CFG-B: N = 64, W = 8, OUT = 64. -/
def cfgB : Config := { n := 64, w := 8, out := 64, hasDecode := true, latency := 2, isLegal := by decide }
/-- CFG-C: N = 32, W = 4, OUT = 32. -/
def cfgC : Config := { n := 32, w := 4, out := 32, hasDecode := true, latency := 1, isLegal := by decide }
/-- CFG-D: N = 8, W = 1, OUT = 8, no decoder. -/
def cfgD : Config := { n := 8, w := 1, out := 8, hasDecode := false, latency := 0, isLegal := by decide }
/-- CFG-E: N = 16, W = 16, OUT = 16, one lane. -/
def cfgE : Config := { n := 16, w := 16, out := 16, hasDecode := true, latency := 0, isLegal := by decide }

/-! ### Legality: the refusals T-R3 to T-R7, each beside its nearest accepted case -/

theorem test_illegal_n : Params.legal ⟨24, 8, 8, false, 0⟩ = false ∧ Params.legal ⟨32, 8, 8, false, 0⟩ = true := by
  decide

theorem test_illegal_w_not_dividing :
    Params.legal ⟨32, 3, 8, false, 0⟩ = false ∧ Params.legal ⟨32, 12, 8, false, 0⟩ = false ∧
      Params.legal ⟨32, 4, 8, false, 0⟩ = true := by decide

theorem test_illegal_out_too_narrow :
    Params.legal ⟨128, 4, 64, true, 0⟩ = false ∧ Params.legal ⟨128, 4, 128, true, 0⟩ = true ∧
      Params.legal ⟨16, 4, 8, true, 0⟩ = false ∧ Params.legal ⟨16, 4, 16, true, 0⟩ = true := by decide

theorem test_illegal_narrow_digit_lane :
    Params.legal ⟨16, 2, 128, true, 0⟩ = false ∧ Params.legal ⟨16, 2, 128, false, 0⟩ = true := by decide

/-! ### WellFormed: an ill-formed term for each check -/

theorem test_wf_bcast : Instr.wellFormed cfgA (.bcast 0x130) = false ∧ Instr.wellFormed cfgA (.bcast 0x30) = true := by
  decide
theorem test_wf_add : Instr.wellFormed cfgD (.add 0x100 0) = false ∧ Instr.wellFormed cfgD (.add 0 0x100) = false ∧
    Instr.wellFormed cfgD (.add 0xFF 0xFF) = true := by decide
theorem test_wf_sub : Instr.wellFormed cfgD (.sub 0x100 0) = false ∧ Instr.wellFormed cfgD (.sub 0 0x100) = false := by
  decide
theorem test_wf_cmpeq :
    Instr.wellFormed cfgD (.cmpeq 0x100 0) = false ∧ Instr.wellFormed cfgD (.cmpeq 0 0x100) = false := by decide
theorem test_wf_cmplt :
    Instr.wellFormed cfgD (.cmplt 0x100 0) = false ∧ Instr.wellFormed cfgD (.cmplt 0 0x100) = false := by decide
theorem test_wf_ffs : Instr.wellFormed cfgD (.ffs 0x100) = false := by decide
theorem test_wf_fls : Instr.wellFormed cfgD (.fls 0x100) = false := by decide
theorem test_wf_popc : Instr.wellFormed cfgD (.popc 0x100) = false := by decide
theorem test_wf_decode : Instr.wellFormed cfgD (.decode 0) = false ∧ Instr.wellFormed cfgE (.decode 0x10000) = false ∧
    Instr.wellFormed cfgE (.decode 7) = true := by decide

/-! ### Decoding: request words of the programs P1 to P4, and the refusals T-R1 and T-R2 -/

theorem test_decode_bcast : decodeReq cfgA 0x00000000000000000000000000000000000000000000000000000000000000030#260 =
    .ok (.bcast 0x30) := by decide +kernel
theorem test_decode_msbs : decodeReq cfgC 0x10000000000000000#260 = .ok .msbs := by decide +kernel
theorem test_decode_add : decodeReq cfgC 0x20039182700123456#260 = .ok (.add 0x00123456 0x00391827) := by decide +kernel
theorem test_decode_sub : decodeReq cfgB 0x330303030303030303030343278393137#260 =
    .ok (.sub 0x3030343278393137 0x3030303030303030) := by decide +kernel
theorem test_decode_cmpeq : decodeReq cfgB 0x46C6C6C6C6C6C6C6C77202C6F6C6C6568#260 =
    .ok (.cmpeq 0x77202C6F6C6C6568 0x6C6C6C6C6C6C6C6C) := by decide +kernel
theorem test_decode_cmplt : decodeReq cfgC 0x5004B4C7D99999999#260 = .ok (.cmplt 0x99999999 0x004B4C7D) := by decide +kernel
theorem test_decode_ffs : decodeReq cfgC 0x60000000000080808#260 = .ok (.ffs 0x00080808) := by decide +kernel
theorem test_decode_fls : decodeReq cfgC 0x70000000000080808#260 = .ok (.fls 0x00080808) := by decide +kernel
theorem test_decode_popc : decodeReq cfgC 0x80000000088808080#260 = .ok (.popc 0x88808080) := by decide +kernel
theorem test_decode_decode : decodeReq cfgB 0x900000000000000000000040209090107#260 =
    .ok (.decode 0x0000040209090107) := by decide +kernel
theorem test_decode_ignores_unread : decode cfgA ⟨0x0, 0x1234AB, 0xFFFF⟩ = .ok (.bcast 0xAB) := by decide +kernel
theorem test_decode_reserved : decode cfgA ⟨0xA, 1, 2⟩ = .error (.reservedOpcode 0xA) ∧
    decode cfgA ⟨0xF, 1, 2⟩ = .error (.reservedOpcode 0xF) ∧
    decode cfgD ⟨0x9, 1, 2⟩ = .error (.reservedOpcode 0x9) := by decide +kernel
theorem test_decode_too_wide : decodeReq cfgC 0x100000000000000000#260 = .error .notARequest := by decide +kernel
theorem test_table_words : decodeTableWord 8 0x3 = some (.sub 0 0) ∧ decodeTableWord 8 0xB = none := by decide +kernel

/-! ### Meanings: the block of configuration `c`, with LATENCY 0, serves one request -/

/-- What the port shows after one step in which the block, with nothing in flight, serves `q`. -/
def serves (c : Config) (q : Request) : Option Response :=
  match step { State.resetOf c with inputs := [.present q] } with
  | .next t => if t.rspValid then some t.rsp else none
  | .fault _ => none
  | .refused _ => none

/-- T-D2. -/
theorem test_bcast : serves cfgA ⟨0x0, 0x1234AB, 0⟩ = some ⟨0xABABABABABABABABABABABABABABABAB, 0, false⟩ := by
  decide +kernel
/-- T-D9 at CFG-A and CFG-D. -/
theorem test_msbs : serves cfgA ⟨0x1, 3, 5⟩ = some ⟨0x80808080808080808080808080808080, 0, false⟩ ∧
    serves cfgD ⟨0x1, 3, 5⟩ = some ⟨0xFF, 0, false⟩ := by decide +kernel
/-- T-D10: four lanes overflow, their neighbours are untouched. -/
theorem test_add_isolates_carry :
    serves cfgA ⟨0x2, 0x00FF80017F00FFFE0102030405060708, 0x0001800180FF0103F0E0D0C0B0A09080⟩ =
      some ⟨0x00000002FFFF0001F1E2D3C4B5A69788, 0, false⟩ := by decide +kernel
/-- T-D15 and T-D16. -/
theorem test_add_edges : serves cfgD ⟨0x2, 0xCA, 0xA6⟩ = some ⟨0x6C, 0, false⟩ ∧
    serves cfgE ⟨0x2, 0xFFFF, 0x0001⟩ = some ⟨0, 0, false⟩ := by decide +kernel
/-- T-D20. -/
theorem test_sub_isolates_borrow :
    serves cfgA ⟨0x3, 0x00FF80017F00FFFE0102030405060708, 0x0001800180FF0103F0E0D0C0B0A09080⟩ =
      some ⟨0x00FE0000FF01FEFB1122334455667788, 0, false⟩ := by decide +kernel
/-- T-D27: the minuend is `a`. -/
theorem test_sub_order : serves cfgE ⟨0x3, 0x0001, 0xFFFF⟩ = some ⟨0x0002, 0, false⟩ := by decide +kernel
/-- T-D30. -/
theorem test_cmpeq :
    serves cfgA ⟨0x4, 0x00FF80017F00FFFE0102030405060708, 0x0001800180FF0103F0E0D0C0B0A09080⟩ =
      some ⟨0x80008080000000000000000000000000, 0, false⟩ := by decide +kernel
/-- T-D34. -/
theorem test_cmpeq_one_bit_lanes : serves cfgD ⟨0x4, 0xCA, 0xA6⟩ = some ⟨0x93, 0, false⟩ := by decide +kernel
/-- T-D45: 0x80 is not below 0x7F. -/
theorem test_cmplt_unsigned :
    serves cfgA ⟨0x5, 0x80808080808080808080808080808080, 0x7F7F7F7F7F7F7F7F7F7F7F7F7F7F7F7F⟩ =
      some ⟨0, 0, false⟩ := by decide +kernel
/-- T-D40. -/
theorem test_cmplt :
    serves cfgA ⟨0x5, 0x00FF80017F00FFFE0102030405060708, 0x0001800180FF0103F0E0D0C0B0A09080⟩ =
      some ⟨0x00000000808000008080808080808080, 0, false⟩ := by decide +kernel
/-- T-D57: bit 0 is no designated bit; and T-D55. -/
theorem test_ffs : serves cfgA ⟨0x6, 0x00000000000000000000800000000001, 0⟩ = some ⟨0, 5, false⟩ ∧
    serves cfgA ⟨0x6, 0x7F7F7F7F7F7F7F7F7F7F7F7F7F7F7F7F, 0⟩ = some ⟨0, 0, true⟩ := by decide +kernel
/-- T-D58 and T-D50. -/
theorem test_fls : serves cfgA ⟨0x7, 0x00000080000000000000000000FF0000, 0⟩ = some ⟨0, 12, false⟩ ∧
    serves cfgA ⟨0x7, 0, 0⟩ = some ⟨0, 0, true⟩ := by decide +kernel
/-- T-D58 and T-D54. -/
theorem test_popc : serves cfgA ⟨0x8, 0x00000080000000000000000000FF0000, 0⟩ = some ⟨0, 2, false⟩ ∧
    serves cfgA ⟨0x8, 0x80808080808080808080808080808080, 0⟩ = some ⟨0, 16, false⟩ := by decide +kernel
/-- T-S6: the source's end-to-end scenario. -/
theorem test_decode_sixteen_digits :
    serves cfgA ⟨0x9, 0x01020304050607080908070605040302, 0⟩ = some ⟨0, 1234567898765432, false⟩ := by decide +kernel
/-- T-D69. -/
theorem test_decode_one_lane : serves cfgE ⟨0x9, 0x0007, 0xFFFF⟩ = some ⟨0, 7, false⟩ := by decide +kernel

/-! ### Cycles -/

/-- R93 at LATENCY 2: the response to a request of cycle 0 shows in cycle 2, and not before. -/
theorem test_latency_two :
    (match Host.Core.run Sys2Proof.core 2 { State.resetOf cfgB with inputs := [.present ⟨0x1, 0, 0⟩] } with
      | .next t => t.rspValid = false | _ => False) ∧
    (match Host.Core.run Sys2Proof.core 3 { State.resetOf cfgB with inputs := [.present ⟨0x1, 0, 0⟩] } with
      | .next t => t.rspValid = true ∧ t.rsp.r = 0x8080808080808080 | _ => False) := ⟨rfl, rfl, rfl⟩

/-- R88: a reset in cycle 1 discards the request of cycle 0, due in cycle 1. -/
theorem test_reset_discards :
    match Host.Core.run Sys2Proof.core 2
        { State.resetOf cfgC with inputs := [.present ⟨0x1, 0, 0⟩, { rst := true, valid := true, req := ⟨0x1, 0, 0⟩ }] } with
      | .next t => t.rspValid = false ∧ t.pipe = [none] | _ => False := ⟨rfl, rfl⟩

/-- T-R1. -/
theorem test_step_refuses_reserved :
    step { State.reset with inputs := [.present ⟨0xA, 1, 2⟩] } = .refused (.reservedOpcode 0xA) ∧
      portExec cfgA ⟨0xA, 1, 2⟩ = ⟨0, 0, false⟩ := ⟨rfl, rfl⟩

/-! ### Log helpers, host operands, listings -/

/-- T-S1 to T-S5. -/
theorem test_log_helpers : floorLog2 1 (by decide) = 0 ∧ floorLog2 2 (by decide) = 1 ∧ floorLog2 7 (by decide) = 2 ∧
    ceilLog2 7 (by decide) = 3 ∧ ceilLog2 8 (by decide) = 3 := by decide

/-- Program P2's operand: the bytes of "hello, w" at rising addresses. -/
theorem test_host_operand : hostOperand cfgB [0x68, 0x65, 0x6C, 0x6C, 0x6F, 0x2C, 0x20, 0x77] =
    some 0x77202C6F6C6C6568 := by decide

/-- T-R9. -/
theorem test_listing_literal : lineRequest cfgA [] ⟨"z", .BCAST, [.imm 0x130]⟩ = .error .literalTooWide ∧
    lineRequest cfgA [] ⟨"z", .BCAST, [.imm 0x30]⟩ = .ok ⟨0x0, 0x30, 0⟩ := by decide

/-- R46 with R21: BCAST of a name reads and writes the low W bits alone, at either end of the lane's range. -/
theorem test_listing_bcast_name :
    lineRequest cfgC [("x", ⟨0xFFFFFFF0, false⟩)] ⟨"z", .BCAST, [.name "x"]⟩ = .ok ⟨0x0, 0, 0⟩ ∧
      lineRequest cfgC [("x", ⟨0xFFFFFFFF, false⟩)] ⟨"z", .BCAST, [.name "x"]⟩ = .ok ⟨0x0, 0xF, 0⟩ := by decide

/-- Program P1, lines 1 to 3: sixteen ASCII digits to an integer. -/
theorem test_listing_p1 :
    ((runLines cfgA [("x", ⟨0x31323334353637383938373635343332, false⟩)]
      [⟨"z", .BCAST, [.imm 0x30]⟩, ⟨"d", .SUB, [.name "x", .name "z"]⟩, ⟨"v", .DECODE, [.name "d"]⟩]).map
        fun env => lookupName env "v") = .ok (.ok 1234567898765432) := by decide +kernel

/-! ### Witnesses: concrete values that meet the hypotheses of each statement that has any -/

theorem witness_decoder_fits : 4 ≤ cfgB.w := by decide
theorem witness_legal_shape : cfgC.hasDecode = true ∧ 99999999 < 10 ^ cfgC.lanes := by decide

/-- Lanes 0 and L − 1 exist, for every statement about a lane i < L. -/
theorem witness_lane_bounds : 0 < (State.resetOf cfgC).cfg.lanes ∧ 7 < (State.resetOf cfgC).cfg.lanes ∧
    (127 : Nat) < 128 := by decide

/-- FFS, FLS: no lane hit; lane 0 the least; lane L − 1 the least; lane L − 1 the greatest; lane 0 the greatest. -/
theorem witness_ffs_none : ∀ i, i < cfgC.lanes → hit cfgC 0x77777777 i = false := by decide
theorem witness_ffs_lane_zero : hit cfgC 0x80000008 0 = true ∧ ∀ j, j < 0 → hit cfgC 0x80000008 j = false := by decide
theorem witness_ffs_last_lane : hit cfgC 0x80000000 7 = true ∧ ∀ j, j < 7 → hit cfgC 0x80000000 j = false := by decide
theorem witness_fls_last_lane :
    hit cfgC 0x80000008 7 = true ∧ ∀ j, j < cfgC.lanes → 7 < j → hit cfgC 0x80000008 j = false := by decide
theorem witness_fls_lane_zero :
    hit cfgC 0x00000008 0 = true ∧ ∀ j, j < cfgC.lanes → 0 < j → hit cfgC 0x00000008 j = false := by decide

/-- DECODE: every lane 9, and one lane 10. -/
theorem witness_decode_in_domain :
    (State.resetOf cfgC).cfg.hasDecode = true ∧ ∀ k, k < cfgC.lanes → lane cfgC 0x99999999 k ≤ 9 := by decide
theorem witness_decode_out_of_domain :
    cfgC.hasDecode = true ∧ ¬ ∀ k, k < cfgC.lanes → lane cfgC 0x00000A00 k ≤ 9 := by decide

/-- A state with one request planned. -/
def planned (c : Config) (x : PortCycle) : State := { State.resetOf c with inputs := [x] }

theorem witness_step_runs : (planned cfgC (.present ⟨0x2, 1, 2⟩)).inputs = .present ⟨0x2, 1, 2⟩ :: [] ∧
    (PortCycle.present ⟨0x2, 1, 2⟩).rst = false ∧ (PortCycle.present ⟨0x2, 1, 2⟩).valid = true ∧
    decode cfgC ⟨0x2, 1, 2⟩ = .ok (.add 1 2) := by decide
theorem witness_placed_word : decode State.reset.cfg (tableRequest 8 0x9) = .ok (.decode 0) := by decide

theorem witness_reserved : (planned cfgC (.present ⟨0xA, 1, 2⟩)).inputs = .present ⟨0xA, 1, 2⟩ :: [] ∧
    10 ≤ (0xA#4).toNat ∧ 10 ≤ (0xF#4).toNat := by decide
theorem witness_reserved_without_decoder : (planned cfgD (.present ⟨0x9, 1, 2⟩)).inputs = .present ⟨0x9, 1, 2⟩ :: [] ∧
    (planned cfgD (.present ⟨0x9, 1, 2⟩)).cfg.hasDecode = false := by decide

theorem witness_quiet_cycle : (planned cfgC .quiet).inputs = .quiet :: [] ∧ PortCycle.quiet.rst = false ∧
    PortCycle.quiet.valid = false ∧ State.reset.inputs = [] := by decide

/-- A cycle with reset and a request at once. -/
def resetCycle : PortCycle := { rst := true, valid := true, req := ⟨0x1, 0, 0⟩ }

theorem witness_reset_cycle : (planned cfgB resetCycle).inputs = resetCycle :: [] ∧ resetCycle.rst = true := by decide
theorem witness_step_next : ∃ t, step (planned cfgC (.present ⟨0x2, 1, 2⟩)) = .next t := ⟨_, rfl⟩
theorem witness_whole_step : (planned cfgC (.present ⟨0x2, 1, 2⟩)).whole = true ∧
    ∃ t, step (planned cfgC (.present ⟨0x2, 1, 2⟩)) = .next t := ⟨by decide, _, rfl⟩
theorem witness_reset_step : (planned cfgB resetCycle).nextCycle.rst = true ∧
    ∃ t, step (planned cfgB resetCycle) = .next t := ⟨rfl, _, rfl⟩
theorem witness_permitted :
    [PortCycle.present ⟨0x9, 7, 0⟩, resetCycle, .quiet, .present ⟨0x0, 7, 0⟩].all (permitted cfgB) = true := by decide

/-- Reset, then two requests, at LATENCY 2: k = 1 is silent, k = 2 answers. -/
theorem witness_reset_then_requests :
    ({ State.powerOn cfgB with inputs := resetCycle :: [.present ⟨0x1, 0, 0⟩, .present ⟨0x2, 1, 2⟩] } : State).inputs =
      resetCycle :: [.present ⟨0x1, 0, 0⟩, .present ⟨0x2, 1, 2⟩] ∧ resetCycle.rst = true ∧
    steadyHost cfgB [.present ⟨0x1, 0, 0⟩, .present ⟨0x2, 1, 2⟩] = true ∧ 1 < cfgB.latency ∧ cfgB.latency ≤ 2 :=
  ⟨rfl, by decide⟩

/-- A state with a response and an empty slot in flight. -/
def inFlight : State := { State.resetOf cfgB with pipe := [some ⟨1, 0, false⟩, none], inputs := [.present ⟨0x1, 0, 0⟩] }

theorem witness_in_flight : inFlight.trusted = true ∧ steadyHost inFlight.cfg inFlight.inputs = true ∧
    inFlight.pipe[0]? = some (some ⟨1, 0, false⟩) ∧ inFlight.pipe[1]? = some none := by decide

/-- CFG-B with another LATENCY. -/
def cfgBSlow : Config := { cfgB with latency := 9, isLegal := by decide }

theorem witness_same_but_latency : sameButLatency inFlight.cfg (State.resetOf cfgBSlow).cfg ∧
    decode inFlight.cfg ⟨0x2, 1, 2⟩ = .ok (.add 1 2) ∧ (∃ t, exec (.add 1 2) inFlight = .next t) ∧
    ∃ t, exec (.add 1 2) (State.resetOf cfgBSlow) = .next t :=
  ⟨⟨rfl, rfl, rfl, rfl⟩, by decide, ⟨_, rfl⟩, _, rfl⟩
theorem witness_same_read_bits : sameReadBits cfgA ⟨0x0, 0x1234AB, 7⟩ ⟨0x0, 0xAB, 0⟩ :=
  ⟨rfl, fun m h => by cases h; exact rfl⟩
theorem witness_carry_isolation : lane cfgA 0x01FF 1 = lane cfgA 0x01F0 1 ∧ lane cfgA 0x0101 1 = lane cfgA 0x0100 1 ∧
    1 < cfgA.lanes := by decide

theorem witness_round_trip : Instr.wellFormed cfgC (.decode 0xFFFFFFFF) = true ∧
    Instr.wellFormed cfgC (.sub 0xFFFFFFFF 0xFFFFFFFF) = true ∧ Instr.wellFormed cfgC (.bcast 0xF) = true := by decide
theorem witness_decoded : decode cfgC ⟨0x4, 1, 2⟩ = .ok (.cmpeq 1 2) := by decide
theorem witness_request_words : (0x5004B4C7D99999999#260).toNat < 2 ^ (2 * cfgC.n + 4) ∧
    2 ^ (2 * cfgC.n + 4) ≤ (0x100000000000000000#260).toNat := by decide +kernel
theorem witness_listing : 2 ^ cfgA.w ≤ 0x100 ∧ Instr.wellFormed cfgA (.bcast 0xFF) = true := by decide
/-- A line whose source value is wider than BCAST reads. -/
theorem witness_listing_line :
    lineRequest cfgA [("x", ⟨0x1234AB, false⟩)] ⟨"z", .BCAST, [.name "x"]⟩ = .ok ⟨0x0, 0xAB, 0⟩ ∧
      decode cfgA ⟨0x0, 0xAB, 0⟩ = .ok (.bcast 0xAB) := by decide

theorem witness_log_arguments : 1 ≤ 1 ∧ 17 ≤ 2 ^ 5 := by decide
theorem witness_decode_tree : cfgC.hasDecode = true ∧ passCount cfgC = 3 ∧ 0 ≤ passCount cfgC := by decide
/-- The first pass has the pairs 0 to 3, the last pass the pair 0 alone. -/
theorem witness_tree_pairs : 0 < passCount cfgC ∧ 3 < cfgC.lanes / 2 ^ (0 + 1) ∧ 2 < passCount cfgC ∧
    0 < cfgC.lanes / 2 ^ (2 + 1) := by decide
theorem witness_lane_found : (portExec cfgC ⟨0x6, 0x80000008, 0⟩).noMatch = false := by decide
theorem witness_decimal_round_trip : cfgC.hasDecode = true ∧ 99999999 < 10 ^ cfgC.lanes := by decide
theorem witness_single_digit : cfgC.hasDecode = true ∧ 9 ≤ 9 ∧ 7 < cfgC.lanes := by decide
theorem witness_host_operand :
    [0x68#8, 0x65#8, 0x6C#8, 0x6C#8, 0x6F#8, 0x2C#8, 0x20#8, 0x77#8].length = cfgB.n / 8 ∧ cfgB.w = 8 ∧
      7 < cfgB.lanes := by decide

/-! ### Power-on -/

/-- R89: before the first reset the ports can be trusted at LATENCY 0 and not at LATENCY 2. -/
theorem test_power_on_trust : (State.powerOn cfgA).trusted = true ∧ (State.powerOn cfgB).trusted = false ∧
    (State.powerOn cfgB).resetSeen = false := ⟨rfl, rfl, rfl⟩

/-- R89 at LATENCY 0: nothing is stored, so nothing is unknown in flight. -/
theorem test_power_on_combinational : (State.powerOn cfgA).pipe = [] ∧ (State.powerOn cfgA).rspValid = false :=
  ⟨rfl, rfl⟩

/-- R89 at LATENCY 2: a request of the first cycle, two cycles later, is still not known to show; after a reset one
is. -/
theorem test_power_on_needs_reset :
    (match Host.Core.run Sys2Proof.core 3 { State.powerOn cfgB with inputs := [.present ⟨0x1, 0, 0⟩] } with
      | .next t => t.rspValid = Config.unresetValid 3 | _ => False) ∧
    (match Host.Core.run Sys2Proof.core 4
        { State.powerOn cfgB with inputs := [resetCycle, .present ⟨0x1, 0, 0⟩] } with
      | .next t => t.rspValid = true | _ => False) := ⟨rfl, rfl⟩

theorem witness_power_on_cycle :
    (State.powerOn cfgB).trusted = false ∧ (State.powerOn cfgB).nextCycle.rst = false ∧
      (∃ t, step (State.powerOn cfgB) = .next t) ∧
      ∃ t, step { State.powerOn cfgB with inputs := [resetCycle] } = .next t := ⟨rfl, rfl, ⟨_, rfl⟩, _, rfl⟩
theorem witness_power_on_without_latency :
    cfgA.latency = 0 ∧ steadyHost cfgA [.present ⟨0x1, 0, 0⟩, .quiet, .present ⟨0x2, 1, 2⟩] = true := by decide

end Sys2Proof.Tests
end

section
/-! Scope (00_scope.md): the reference configuration. -/

namespace Sys2Proof

/-- S3 of R8: a decoder is only built where every L-digit decimal number fits the scalar result. -/
theorem Config.ten_pow_lanes_le (c : Config) (h : c.hasDecode = true) : 10 ^ c.lanes ≤ 2 ^ c.out := by
  obtain ⟨-, -, -, -, hdecode⟩ := c.legal_cases
  exact (hdecode h).2

/-- Settles O1: the parameters are read off the definition of CFG-A, and the bound is R8 at them. -/
theorem referenceConfigurationIsCfgA : Obligations.ReferenceConfigurationIsCfgA := by
  have hlanes : cfgA.lanes = 16 := rfl
  have hbound : 10 ^ cfgA.lanes ≤ 2 ^ cfgA.out := cfgA.ten_pow_lanes_le rfl
  exact ⟨rfl, rfl, hlanes, rfl, rfl, hbound⟩

end Sys2Proof
end

section
/-! State (10_state.md): what the response to a request depends on (R19, R21). -/

namespace Sys2Proof.Machine

open Sys2Proof

/-- The decimal sum reads of the block only its lane width (R69). -/
theorem digitSum_eq_of_w_eq {c d : Config} (hw : c.w = d.w) (a : Word) (k : Nat) :
    digitSum c a k = digitSum d a k := by
  simp only [digitSum_eq_sum, lane, hw]

/-- R19: the response reads the geometry of the block and the instruction, and not LATENCY. Once the parameters
other than LATENCY are the same variables, each operation's rule unfolds to one term on both blocks, but for DECODE's
sum, whose recursion carries the whole block along. -/
theorem respond_eq_of_sameButLatency {c d : Config} (h : sameButLatency c d) (i : Instr) :
    respond c i = respond d i := by
  obtain ⟨⟨n, w, out, hasDecode, latency⟩, legal⟩ := c
  obtain ⟨⟨n', w', out', hasDecode', latency'⟩, legal'⟩ := d
  obtain ⟨hn, hw, hout, hdecode⟩ := h
  dsimp only at hn hw hout hdecode
  subst hn hw hout hdecode
  cases i with
  | decode a =>
    have hvalue := digitSum_eq_of_w_eq (c := ⟨⟨n, w, out, hasDecode, latency⟩, legal⟩)
      (d := ⟨⟨n, w, out, hasDecode, latency'⟩, legal'⟩) rfl a (n / w)
    simp only [respond, respDecode, decimalValue, Config.lanes, hvalue]
    rfl
  | _ => rfl

/-- Exec of a request that decodes is the response to its instruction (R19). -/
theorem portExec_of_decode {c : Config} {q : Request} {i : Instr} (h : decode c q = .ok i) :
    portExec c q = respond c i := by
  simp only [portExec, h]

/-- Exec sees a request only through its decoding. -/
theorem portExec_congr {c : Config} {p q : Request} (h : decode c p = decode c q) :
    portExec c p = portExec c q := by
  simp only [portExec, h]

/-- A next state of exec has accepted the response to the instruction. -/
theorem exec_next_accepted {i : Instr} {s t : State} (h : exec i s = .next t) :
    Accepted s t (respond s.cfg i) := by
  rw [exec_next_accepts h]
  exact s.accept_accepted _

/-- An operation reads the same operands from two requests that agree in the bits its class reads (R21, R38). -/
theorem readOperands_eq_of_sameReadBits {c : Config} {p q : Request} {m : Mnemonic} (h : sameReadBits c p q)
    (hm : selectOp c p.op = .ok m) : readOperands c m p = readOperands c m q := by
  obtain ⟨-, hbits⟩ := h
  have hread := hbits m hm
  cases m with
  | BCAST => exact congrArg Instr.bcast hread
  | MSBS => rfl
  | ADD | SUB | CMPEQ | CMPLT =>
    obtain ⟨ha, hb⟩ := hread
    simp only [readOperands, ha, hb]
  | FFS => exact congrArg Instr.ffs hread
  | FLS => exact congrArg Instr.fls hread
  | POPC => exact congrArg Instr.popc hread
  | DECODE => exact congrArg Instr.decode hread

/-- Two requests that agree in the opcode and the bits it reads decode alike: to one instruction, or to the refusal
of their common opcode. -/
theorem decode_eq_of_sameReadBits {c : Config} {p q : Request} (h : sameReadBits c p q) :
    decode c p = decode c q := by
  have hop : p.op = q.op := h.1
  simp only [decode, ← hop]
  cases hm : selectOp c p.op with
  | ok m => exact congrArg Except.ok (readOperands_eq_of_sameReadBits h hm)
  | error e => rfl

/-- Settles O29: exec accepts `respond` of its own block, which is Exec's answer there and is one on both blocks. -/
theorem responseDependsOnRequestAlone : Obligations.ResponseDependsOnRequestAlone := by
  intro p i s t s' t' hsame hdecode ht ht'
  have hexec : portExec s.cfg p = respond s.cfg i := portExec_of_decode hdecode
  have hother : portExec s.cfg p = respond s'.cfg i := hexec.trans (respond_eq_of_sameButLatency hsame i)
  constructor
  · rw [hexec]
    exact exec_next_accepted ht
  · rw [hother]
    exact exec_next_accepted ht'

/-- Settles O30: unread bits are gone once the request is decoded, and Exec sees no more than the decoding. -/
theorem unreadOperandBitsHaveNoEffect : Obligations.UnreadOperandBitsHaveNoEffect := by
  intro c p q h
  have hdecode : decode c p = decode c q := decode_eq_of_sameReadBits h
  exact ⟨hdecode, portExec_congr hdecode⟩

end Sys2Proof.Machine
end

section
/-! Memory (20_memory.md): how the host's bytes become lanes (R30). -/

namespace Sys2Proof

/-- Every admitted register width is a whole number of bytes (R4). -/
theorem Config.bytes_mul_eight (c : Config) : c.n / 8 * 8 = c.n := by
  have hwidth := mem_admittedWidths c.legal_cases.1
  omega

namespace Machine

/-- The byte at offset j from the operand's address, as a number. -/
def byteAt (bytes : List (BitVec 8)) (j : Nat) : Nat := (bytes.getD j 0).toNat

@[simp] theorem byteAt_cons_zero (byte : BitVec 8) (rest : List (BitVec 8)) :
    byteAt (byte :: rest) 0 = byte.toNat := rfl

@[simp] theorem byteAt_cons_succ (byte : BitVec 8) (rest : List (BitVec 8)) (j : Nat) :
    byteAt (byte :: rest) (j + 1) = byteAt rest j := rfl

theorem byteAt_lt (bytes : List (BitVec 8)) (j : Nat) : byteAt bytes j < 2 ^ 8 := (bytes.getD j 0).isLt

/-- The packing as the sum of its lanes at their weights. -/
theorem packNat_eq_sum (w : Nat) (f : Nat → Nat) (k : Nat) :
    packNat w f k = ((List.range k).map fun j => f j * 2 ^ (w * j)).sum := by
  induction k with
  | zero => rfl
  | succ k ih => simp [packNat, ih, List.range_succ, Nat.mul_comm w]

/-- The packing taken apart at its lowest lane, where its recursion takes off the highest. -/
theorem packNat_succ_low (w : Nat) (f : Nat → Nat) (k : Nat) :
    packNat w f (k + 1) = f 0 + 2 ^ w * packNat w (fun j => f (j + 1)) k := by
  induction k with
  | zero => simp [packNat]
  | succ k ih =>
    rw [packNat, ih, packNat]
    ring

/-- The little-endian number of the bytes is their packing at lane width 8. -/
theorem littleEndian_eq_packNat (bytes : List (BitVec 8)) :
    littleEndian bytes = packNat 8 (byteAt bytes) bytes.length := by
  induction bytes with
  | nil => rfl
  | cons byte rest ih =>
    rw [List.length_cons, packNat_succ_low, littleEndian, ih]
    simp only [byteAt_cons_zero, byteAt_cons_succ]

theorem littleEndian_lt (bytes : List (BitVec 8)) : littleEndian bytes < 2 ^ (bytes.length * 8) := by
  rw [littleEndian_eq_packNat]
  exact packNat_lt _ fun j _ => byteAt_lt bytes j

/-- Bits 8j+7:8j of the little-endian number are byte j. -/
theorem littleEndian_byte (bytes : List (BitVec 8)) {j : Nat} (hj : j < bytes.length) :
    littleEndian bytes / 2 ^ (j * 8) % 2 ^ 8 = byteAt bytes j := by
  rw [littleEndian_eq_packNat]
  exact packNat_lane (fun i _ => byteAt_lt bytes i) hj

/-- The right number of bytes makes an operand, and its value is their little-endian number: N ≤ 128 bits lose
nothing in the carrier. -/
theorem hostOperand_of_length {c : Config} {bytes : List (BitVec 8)} (hlen : bytes.length = c.n / 8) :
    ∃ x, hostOperand c bytes = some x ∧ x.toNat = littleEndian bytes ∧ fits c.n x = true := by
  have hbound : littleEndian bytes < 2 ^ c.n := by
    have h := littleEndian_lt bytes
    rwa [hlen, c.bytes_mul_eight] at h
  have hvalue : (BitVec.ofNat 128 (littleEndian bytes)).toNat = littleEndian bytes :=
    Nat.mod_eq_of_lt (hbound.trans_le (Nat.pow_le_pow_right (by norm_num) c.n_le))
  refine ⟨_, if_pos hlen, hvalue, ?_⟩
  rw [fits, hvalue]
  exact decide_eq_true hbound

/-- Settles O54: the operand is the packing of its bytes at lane width 8, so it is their weighted sum, and a block
with W = 8 reads the bytes back as its lanes. -/
theorem hostOperandIsLittleEndian : Obligations.HostOperandIsLittleEndian := by
  intro c bytes hlen
  obtain ⟨x, hx, hvalue, hfits⟩ := hostOperand_of_length hlen
  refine ⟨x, hx, hfits, ?_, fun hw j hj => ?_⟩
  · rw [hvalue, littleEndian_eq_packNat, packNat_eq_sum, hlen]
    rfl
  · have hbyte : j < bytes.length := by rwa [hlen, ← hw]
    rw [lane, laneOf, hw, hvalue]
    exact littleEndian_byte bytes hbyte

end Machine

end Sys2Proof
end

section
/-! Encoding (30_encoding.md): the fields of a request word (R37), and what the opcode decides (R41). -/

namespace Sys2Proof

/-- The fields of `REQ = {op, b, a}` (R37), read off any word. -/
def wordFields (c : Config) (w : ReqWord) : Request where
  op := BitVec.ofNat 4 (w.toNat / 2 ^ (2 * c.n))
  a := BitVec.ofNat 128 (w.toNat % 2 ^ c.n)
  b := BitVec.ofNat 128 (w.toNat / 2 ^ c.n % 2 ^ c.n)

/-- A word of 2N + 4 bits unpacks to its fields. -/
theorem unpackReq_of_lt {c : Config} {w : ReqWord} (h : w.toNat < 2 ^ (2 * c.n + 4)) :
    unpackReq c w = .ok (wordFields c w) := if_pos h

/-- A word with a bit above the 2N + 4 bits is no request. -/
theorem unpackReq_of_le {c : Config} {w : ReqWord} (h : 2 ^ (2 * c.n + 4) ≤ w.toNat) :
    unpackReq c w = .error .notARequest := if_neg h.not_gt

theorem decodeReq_of_unpackReq_error {c : Config} {w : ReqWord} {e : DecodeError}
    (h : unpackReq c w = .error e) : decodeReq c w = .error e := by
  simp only [decodeReq, h]

/-- The carrier holds every value of at most N bits. -/
theorem Config.toNat_ofNat_mod (c : Config) (x : Nat) :
    (BitVec.ofNat 128 (x % 2 ^ c.n)).toNat = x % 2 ^ c.n := by
  have hcarrier : x % 2 ^ c.n < 2 ^ 128 :=
    (Nat.mod_lt _ (by positivity)).trans_le (Nat.pow_le_pow_right (by norm_num) c.n_le)
  rw [BitVec.toNat_ofNat, Nat.mod_eq_of_lt hcarrier]

@[simp] theorem wordFields_a_toNat (c : Config) (w : ReqWord) :
    (wordFields c w).a.toNat = w.toNat % 2 ^ c.n := c.toNat_ofNat_mod _

@[simp] theorem wordFields_b_toNat (c : Config) (w : ReqWord) :
    (wordFields c w).b.toNat = w.toNat / 2 ^ c.n % 2 ^ c.n := c.toNat_ofNat_mod _

/-- In a word of 2N + 4 bits, nothing stands above the four bits of `op`. -/
theorem wordFields_op_toNat {c : Config} {w : ReqWord} (h : w.toNat < 2 ^ (2 * c.n + 4)) :
    (wordFields c w).op.toNat = w.toNat / 2 ^ (2 * c.n) := by
  have hop : w.toNat / 2 ^ (2 * c.n) < 2 ^ 4 := Nat.div_lt_of_lt_mul (by rwa [← pow_add])
  exact Nat.mod_eq_of_lt hop

theorem wordFields_a_fits (c : Config) (w : ReqWord) : fits c.n (wordFields c w).a = true := by
  rw [fits, wordFields_a_toNat]
  exact decide_eq_true (Nat.mod_lt _ (by positivity))

theorem wordFields_b_fits (c : Config) (w : ReqWord) : fits c.n (wordFields c w).b = true := by
  rw [fits, wordFields_b_toNat]
  exact decide_eq_true (Nat.mod_lt _ (by positivity))

/-- `a` is bits N−1:0 of the word. -/
theorem wordFields_a_getLsbD (c : Config) (w : ReqWord) {k : Nat} (hk : k < c.n) :
    (wordFields c w).a.getLsbD k = w.getLsbD k := by
  rw [← BitVec.testBit_toNat, wordFields_a_toNat, Nat.testBit_mod_two_pow, decide_eq_true hk, Bool.true_and,
    BitVec.testBit_toNat]

/-- `b` is bits 2N−1:N of the word. -/
theorem wordFields_b_getLsbD (c : Config) (w : ReqWord) {k : Nat} (hk : k < c.n) :
    (wordFields c w).b.getLsbD k = w.getLsbD (c.n + k) := by
  rw [← BitVec.testBit_toNat, wordFields_b_toNat, Nat.testBit_mod_two_pow, decide_eq_true hk, Bool.true_and,
    Nat.testBit_div_two_pow, BitVec.testBit_toNat, Nat.add_comm]

/-- `op` is bits 2N+3:2N of the word. -/
theorem wordFields_op_getLsbD {c : Config} {w : ReqWord} (h : w.toNat < 2 ^ (2 * c.n + 4)) (k : Nat) :
    (wordFields c w).op.getLsbD k = w.getLsbD (2 * c.n + k) := by
  rw [← BitVec.testBit_toNat, wordFields_op_toNat h, Nat.testBit_div_two_pow, BitVec.testBit_toNat, Nat.add_comm]

/-- A number is its quotient by 2^(2n) and its two n-bit digits, each at its weight. -/
theorem three_fields_sum (n x : Nat) :
    x / 2 ^ (2 * n) * 2 ^ (2 * n) + x / 2 ^ n % 2 ^ n * 2 ^ n + x % 2 ^ n = x := by
  have hsquare : 2 ^ (2 * n) = 2 ^ n * 2 ^ n := by rw [two_mul, pow_add]
  calc x / 2 ^ (2 * n) * 2 ^ (2 * n) + x / 2 ^ n % 2 ^ n * 2 ^ n + x % 2 ^ n
      = (x / 2 ^ n / 2 ^ n * 2 ^ n + x / 2 ^ n % 2 ^ n) * 2 ^ n + x % 2 ^ n := by
        rw [hsquare, ← Nat.div_div_eq_div_mul]; ring
    _ = x := by rw [Nat.div_add_mod', Nat.div_add_mod']

/-- The fields of a word of 2N + 4 bits pack back to the word. -/
theorem packReq_wordFields {c : Config} {w : ReqWord} (h : w.toNat < 2 ^ (2 * c.n + 4)) :
    packReq c (wordFields c w) = w := by
  simp only [packReq, wordFields_op_toNat h, wordFields_a_toNat, wordFields_b_toNat, Nat.mod_mod, three_fields_sum,
    BitVec.ofNat_toNat, BitVec.setWidth_eq]

/-- Settles O34: a word below 2^(2N+4) unpacks to its fields, and any other is refused before its opcode is read. -/
theorem requestWordFields : Obligations.RequestWordFields := by
  refine fun c w => ⟨fun h => ?_, fun h => decodeReq_of_unpackReq_error (unpackReq_of_le h)⟩
  exact ⟨wordFields c w, unpackReq_of_lt h, packReq_wordFields h, wordFields_a_fits c w, wordFields_b_fits c w,
    fun _ hk => wordFields_a_getLsbD c w hk, fun _ hk => wordFields_b_getLsbD c w hk,
    fun k _ => wordFields_op_getLsbD h k⟩

/-- A request whose opcode selects no operation is refused for the reason its opcode is. -/
theorem decode_of_selectOp_error {c : Config} {q : Request} {e : DecodeError} (h : selectOp c q.op = .error e) :
    decode c q = .error e := by
  simp only [decode, h]

/-- Settles O35: the two cases of `selectOp`; reading the operands keeps the operation and refuses nothing. -/
theorem opcodeAloneSelectsOperation : Obligations.OpcodeAloneSelectsOperation := by
  intro c q
  obtain ⟨m, hm, hop, hdecoder⟩ | ⟨hreserved, hwhich⟩ := selectOp_cases c q.op
  · have hdecode : decode c q = .ok (readOperands c m q) := (decode_ok_iff c q _).2 ⟨m, hm, rfl⟩
    have hmnemonic := readOperands_mnemonic c m q
    exact .inl ⟨_, hdecode, by rw [hmnemonic, hop], by rwa [hmnemonic]⟩
  · exact .inr ⟨decode_of_selectOp_error hreserved, hwhich⟩

end Sys2Proof
end

section
/-! Mask broadcast (40_mask_broadcast.md): BCAST (R48) and MSBS (R50). -/

namespace Sys2Proof.Machine

open Sys2Proof

/-- Every operation but DECODE completes in every state, and accepts the response of its rule, which has the ports'
widths (R18, R19). -/
theorem exec_completes {i : Instr} (h : i.mnemonic ≠ .DECODE) (s : State) :
    ∃ t, exec i s = .next t ∧ Accepted s t (respond s.cfg i) ∧ (respond s.cfg i).fitsPorts s.cfg = true := by
  obtain hnext | ⟨hdecode, -⟩ := exec_next_or_no_decoder i s
  · exact ⟨_, hnext, s.accept_accepted _, Response.fitsPorts_of_whole (respond_whole s.cfg i)⟩
  · exact absurd hdecode h

/-- The same value in each lane is that value times a geometric sum, of ratio 2^w. -/
theorem packNat_const (w v k : Nat) : packNat w (fun _ => v) k = v * ∑ i ∈ Finset.range k, (2 ^ w) ^ i := by
  induction k with
  | zero => rfl
  | succ k ih => rw [packNat, ih, Finset.sum_range_succ, mul_add, ← pow_mul, Nat.mul_comm w k]

/-- One unit per lane adds up to ONES = (2^N − 1) / (2^W − 1) (R48). -/
theorem lane_units_sum (c : Config) :
    ∑ i ∈ Finset.range c.lanes, (2 ^ c.w) ^ i = (2 ^ c.n - 1) / (2 ^ c.w - 1) := by
  have hratio : 2 ≤ 2 ^ c.w := Nat.le_self_pow (Nat.one_le_iff_ne_zero.1 c.w_pos) 2
  rw [Nat.geomSum_eq hratio, ← pow_mul, Nat.mul_comm c.w, c.lanes_mul_w]

/-- Every lane of BCAST's pattern is V (R48). -/
theorem lane_broadcast (c : Config) (v : Word) {i : Nat} (hi : i < c.lanes) :
    lane c (broadcast c v) i = v.toNat % 2 ^ c.w :=
  lane_pack c (fun _ _ => Nat.mod_lt _ (by positivity)) hi

/-- BCAST's pattern is V · ONES (R48). -/
theorem broadcast_toNat (c : Config) (v : Word) :
    (broadcast c v).toNat = v.toNat % 2 ^ c.w * ((2 ^ c.n - 1) / (2 ^ c.w - 1)) := by
  rw [broadcast, pack_toNat c fun _ _ => Nat.mod_lt _ (by positivity), packNat_const, lane_units_sum]

/-- Settles O5: the response is the pattern, read lane by lane and as the sum of its lanes. -/
theorem bcastFillsEveryLane : Obligations.BcastFillsEveryLane := by
  refine ⟨fun c a b => (decode_ok_iff c _ _).2 ⟨.BCAST, rfl, rfl⟩, fun v s => ?_⟩
  obtain ⟨t, hnext, haccepted, hfits⟩ := exec_completes (i := .bcast v) nofun s
  exact ⟨t, _, hnext, haccepted, hfits, fun _ hi => lane_broadcast s.cfg v hi, broadcast_toNat s.cfg v, rfl, rfl⟩

/-- Settles O6: the response is the marker mask, whose set bits are the designated bits of the lanes. -/
theorem msbsMarksEveryLaneTop : Obligations.MsbsMarksEveryLaneTop := by
  refine ⟨fun c a b => (decode_ok_iff c _ _).2 ⟨.MSBS, rfl, rfl⟩, fun s => ?_⟩
  obtain ⟨t, hnext, haccepted, hfits⟩ := exec_completes (i := .msbs) nofun s
  exact ⟨t, _, hnext, haccepted, hfits, fun _ hi => lane_marker s.cfg hi, fun k _ => testBit_marker s.cfg k, rfl, rfl⟩

end Sys2Proof.Machine
end

section
/-! Lane arithmetic (42_lane_arith.md): ADD (R56) and SUB (R58). -/

namespace Sys2Proof.Machine

open Sys2Proof

/-- The lane-wise difference on naturals: a lane is less than 2^W, so the added 2^W keeps the difference from
truncating (R58). -/
theorem lane_subLanes_eq_mod (c : Config) (a b : Word) {i : Nat} (hi : i < c.lanes) :
    lane c (subLanes c a b) i = (lane c a i + 2 ^ c.w - lane c b i) % 2 ^ c.w := by
  rw [lane_subLanes c a b hi, laneDifference_eq _ _ _ (lane_lt c b i)]

/-- Settles O7: the response is the packing of the lane sums, from which each lane is read back. -/
theorem addIsLaneSumModulo : Obligations.AddIsLaneSumModulo := by
  refine ⟨fun c a b => (decode_ok_iff c _ _).2 ⟨.ADD, rfl, rfl⟩, fun a b s => ?_⟩
  obtain ⟨t, hnext, haccepted, hfits⟩ := exec_completes (i := .add a b) nofun s
  exact ⟨t, _, hnext, haccepted, hfits, fun _ hi => lane_addLanes s.cfg a b hi, rfl, rfl⟩

/-- Settles O8: the response is the packing of the lane differences, an integer remainder in the model, which
`lane_subLanes_eq_mod` reads as a natural number. -/
theorem subIsLaneDifferenceModulo : Obligations.SubIsLaneDifferenceModulo := by
  refine ⟨fun c a b => (decode_ok_iff c _ _).2 ⟨.SUB, rfl, rfl⟩, fun a b s => ?_⟩
  obtain ⟨t, hnext, haccepted, hfits⟩ := exec_completes (i := .sub a b) nofun s
  exact ⟨t, _, hnext, haccepted, hfits, fun _ hi => lane_subLanes_eq_mod s.cfg a b hi, rfl, rfl⟩

end Sys2Proof.Machine
end

section
/-! Lane compare (43_lane_compare.md): the hit mask (R60), CMPEQ (R61) and CMPLT (R62). -/

namespace Sys2Proof.Machine

open Sys2Proof

/-- The set bits of a hit mask: the designated bits of the lanes where the predicate holds, and no others (R60). -/
theorem testBit_hitMask (c : Config) (p : Nat → Nat → Bool) (a b : Word) (k : Nat) :
    (hitMask c p a b).toNat.testBit k = true ↔
      ∃ i, i < c.lanes ∧ k = top c i ∧ p (lane c a i) (lane c b i) = true := by
  constructor
  · intro h
    rw [testBit_eq_lane_testBit c (hitMask_fits c p a b), Bool.and_eq_true, decide_eq_true_eq] at h
    obtain ⟨hk, hbit⟩ := h
    have hi := div_w_lt_lanes c hk
    rw [lane_hitMask c p a b hi] at hbit
    cases hp : p (lane c a (k / c.w)) (lane c b (k / c.w)) with
    | false => simp [hp, hitLane] at hbit
    | true =>
      have htop : c.w - 1 = k % c.w := by simpa [hp, hitLane, Nat.testBit_two_pow] using hbit
      exact ⟨k / c.w, hi, by rw [top_eq, htop, Nat.mod_add_div], hp⟩
  · rintro ⟨i, hi, rfl, hp⟩
    exact (hit_hitMask c p a b hi).trans hp

/-- A hit mask is clean: it has no bit outside the marker mask (R60). -/
theorem hitMask_and_not_marker (c : Config) (p : Nat → Nat → Bool) (a b : Word) :
    hitMask c p a b &&& ~~~(marker c) = 0 := by
  apply BitVec.eq_of_getLsbD_eq
  intro k hk
  have hmarked : (hitMask c p a b).getLsbD k = true → (marker c).getLsbD k = true := by
    rw [← BitVec.testBit_toNat, ← BitVec.testBit_toNat, testBit_hitMask, testBit_marker]
    rintro ⟨i, hi, htop, -⟩
    exact ⟨i, hi, htop⟩
  simpa [hk] using hmarked

/-- CMPEQ's mask hits the lanes with equal values (R61). -/
theorem hit_hitMask_laneEqual (c : Config) (a b : Word) {i : Nat} (hi : i < c.lanes) :
    hit c (hitMask c laneEqual a b) i = true ↔ lane c a i = lane c b i := by
  rw [hit_hitMask c laneEqual a b hi, laneEqual, decide_eq_true_eq]

/-- CMPLT's mask hits the lanes where `a` is the lesser (R62). -/
theorem hit_hitMask_laneLess (c : Config) (a b : Word) {i : Nat} (hi : i < c.lanes) :
    hit c (hitMask c laneLess a b) i = true ↔ lane c a i < lane c b i := by
  rw [hit_hitMask c laneLess a b hi, laneLess, decide_eq_true_eq]

/-- Settles O9: the response is the hit mask of lane equality, read at the designated bits and outside them. -/
theorem cmpeqMarksEqualLanes : Obligations.CmpeqMarksEqualLanes := by
  refine ⟨fun c a b => (decode_ok_iff c _ _).2 ⟨.CMPEQ, rfl, rfl⟩, fun a b s => ?_⟩
  obtain ⟨t, hnext, haccepted, hfits⟩ := exec_completes (i := .cmpeq a b) nofun s
  exact ⟨t, _, hnext, haccepted, hfits, fun _ hi => hit_hitMask_laneEqual s.cfg a b hi,
    hitMask_and_not_marker s.cfg laneEqual a b, rfl, rfl⟩

/-- Settles O10: the response is the hit mask of the unsigned less-than, read at the designated bits and outside
them. -/
theorem cmpltMarksLesserLanes : Obligations.CmpltMarksLesserLanes := by
  refine ⟨fun c a b => (decode_ok_iff c _ _).2 ⟨.CMPLT, rfl, rfl⟩, fun a b s => ?_⟩
  obtain ⟨t, hnext, haccepted, hfits⟩ := exec_completes (i := .cmplt a b) nofun s
  exact ⟨t, _, hnext, haccepted, hfits, fun _ hi => hit_hitMask_laneLess s.cfg a b hi,
    hitMask_and_not_marker s.cfg laneLess a b, rfl, rfl⟩

end Sys2Proof.Machine
end

section
/-! Horizontal reductions (44_reduce.md): FFS (R64), FLS (R65) and POPC (R66). -/

namespace Sys2Proof.Machine

open Sys2Proof

/-- Masking keeps the designated bit of a lane hit (R67). -/
theorem testBit_maskedHits_top {c : Config} {x : Word} {i : Nat} (hi : i < c.lanes) (hhit : hit c x i = true) :
    (maskedHits c x).toNat.testBit (top c i) = true := (testBit_maskedHits c x _).2 ⟨i, hi, rfl, hhit⟩

/-- A bit that is the designated bit of no lane hit is masked out (R67). -/
theorem testBit_maskedHits_eq_false {c : Config} {x : Word} {k : Nat}
    (h : ∀ i, i < c.lanes → k = top c i → hit c x i = false) : (maskedHits c x).toNat.testBit k = false := by
  rw [Bool.eq_false_iff, ne_eq, testBit_maskedHits]
  rintro ⟨i, hi, htop, hhit⟩
  simp [h i hi htop] at hhit

/-- Below the least lane hit, no bit is left by masking, so the lowest bit left is that lane's (R64). -/
theorem firstHitLane_eq_of_least {c : Config} {x : Word} {i : Nat} (hi : i < c.lanes) (hhit : hit c x i = true)
    (hclear : ∀ j, j < i → hit c x j = false) : firstHitLane c x = i := by
  have hbelow : ∀ k < top c i, (maskedHits c x).toNat.testBit k = false := fun k hk =>
    testBit_maskedHits_eq_false fun j _ htop => hclear j ((top_lt_top c).1 (htop ▸ hk))
  rw [firstHitLane, ctz_eq_of_lowest (top_lt c hi) (testBit_maskedHits_top hi hhit) hbelow, top_div_w]

/-- Above the greatest lane hit, no bit is left by masking, so the highest bit left is that lane's (R65). -/
theorem lastHitLane_eq_of_greatest {c : Config} {x : Word} {i : Nat} (hi : i < c.lanes) (hhit : hit c x i = true)
    (hclear : ∀ j, i < j → j < c.lanes → hit c x j = false) : lastHitLane c x = i := by
  have habove : ∀ k, top c i < k → k < c.n → (maskedHits c x).toNat.testBit k = false := fun k hk _ =>
    testBit_maskedHits_eq_false fun j hj htop => hclear j ((top_lt_top c).1 (htop ▸ hk)) hj
  have htop := top_lt c hi
  rw [lastHitLane, clz_eq_of_highest htop (testBit_maskedHits_top hi hhit) habove, Nat.sub_sub_self (by omega),
    top_div_w]

/-- The bits left by masking are the designated bits of the lanes hit, one for each, so there are as many (R66). -/
theorem hitCount_eq_length (c : Config) (x : Word) :
    hitCount c x = ((List.range c.lanes).filter fun i => hit c x i).length := by
  have hinjective : Function.Injective (top c) := fun i j h => by rw [← top_div_w c i, h, top_div_w]
  have hbits : ((List.range c.n).filter fun k => (maskedHits c x).toNat.testBit k).Perm
      (((List.range c.lanes).filter fun i => hit c x i).map (top c)) := by
    refine (List.perm_ext_iff_of_nodup (List.nodup_range.filter _)
      ((List.nodup_range.filter _).map hinjective)).2 fun k => ?_
    simp only [List.mem_filter, List.mem_map, List.mem_range, testBit_maskedHits]
    constructor
    · rintro ⟨-, i, hi, rfl, hhit⟩
      exact ⟨i, ⟨hi, hhit⟩, rfl⟩
    · rintro ⟨i, ⟨hi, hhit⟩, rfl⟩
      exact ⟨top_lt c hi, i, hi, rfl, hhit⟩
  rw [hitCount, popcount_eq_card, hbits.length_eq, List.length_map]

theorem hitCount_le_lanes (c : Config) (x : Word) : hitCount c x ≤ c.lanes := by
  rw [hitCount_eq_length]
  exact (List.length_filter_le _ _).trans_eq List.length_range

/-- A count of lanes fits the scalar result (S4 of R8), so POPC answers it exactly. -/
theorem respPopc_s_toNat (c : Config) (x : Word) : (respPopc c x).s.toNat = hitCount c x :=
  scalarResponse_s_toNat ((hitCount_le_lanes c x).trans_lt c.lanes_lt_out)

/-- What FFS and FLS have in common: "no match" if no lane is hit, and otherwise the lane found. -/
def searchResponse (c : Config) (x : Word) (found : Nat) : Response :=
  if noLaneHit c x then noMatchResponse else scalarResponse c found

theorem respFfs_eq_searchResponse (c : Config) (x : Word) : respFfs c x = searchResponse c x (firstHitLane c x) := rfl

theorem respFls_eq_searchResponse (c : Config) (x : Word) : respFls c x = searchResponse c x (lastHitLane c x) := rfl

theorem searchResponse_r (c : Config) (x : Word) (found : Nat) : (searchResponse c x found).r = 0 := by
  unfold searchResponse
  split <;> rfl

theorem searchResponse_of_none_hit {c : Config} {x : Word} (hnone : ∀ i, i < c.lanes → hit c x i = false)
    (found : Nat) : searchResponse c x found = noMatchResponse :=
  if_pos ((noLaneHit_iff c x).2 hnone)

theorem searchResponse_of_hit {c : Config} {x : Word} {i : Nat} (hi : i < c.lanes) (hhit : hit c x i = true)
    (found : Nat) : searchResponse c x found = scalarResponse c found := by
  refine if_neg fun hnone => ?_
  simp [(noLaneHit_iff c x).1 hnone i hi] at hhit

/-- FFS answers the least lane hit exactly (R64). -/
theorem respFfs_of_least {c : Config} {x : Word} {i : Nat} (hi : i < c.lanes) (hhit : hit c x i = true)
    (hclear : ∀ j, j < i → hit c x j = false) : (respFfs c x).noMatch = false ∧ (respFfs c x).s.toNat = i := by
  rw [respFfs_eq_searchResponse, searchResponse_of_hit hi hhit, firstHitLane_eq_of_least hi hhit hclear]
  exact ⟨rfl, scalarResponse_s_toNat (hi.trans c.lanes_lt_out)⟩

/-- FLS answers the greatest lane hit exactly (R65). -/
theorem respFls_of_greatest {c : Config} {x : Word} {i : Nat} (hi : i < c.lanes) (hhit : hit c x i = true)
    (hclear : ∀ j, i < j → j < c.lanes → hit c x j = false) :
    (respFls c x).noMatch = false ∧ (respFls c x).s.toNat = i := by
  rw [respFls_eq_searchResponse, searchResponse_of_hit hi hhit, lastHitLane_eq_of_greatest hi hhit hclear]
  exact ⟨rfl, scalarResponse_s_toNat (hi.trans c.lanes_lt_out)⟩

/-- With no lane hit FFS answers "no match" (R64). -/
theorem respFfs_of_none_hit {c : Config} {x : Word} (hnone : ∀ i, i < c.lanes → hit c x i = false) :
    respFfs c x = noMatchResponse := searchResponse_of_none_hit hnone _

/-- With no lane hit FLS answers "no match" (R65). -/
theorem respFls_of_none_hit {c : Config} {x : Word} (hnone : ∀ i, i < c.lanes → hit c x i = false) :
    respFls c x = noMatchResponse := searchResponse_of_none_hit hnone _

/-- Settles O11: the response is "no match" or, with a lane hit, the lane of the lowest designated bit set. -/
theorem ffsFindsLeastHitLane : Obligations.FfsFindsLeastHitLane := by
  refine ⟨fun c a b => (decode_ok_iff c _ _).2 ⟨.FFS, rfl, rfl⟩, fun a s => ?_⟩
  obtain ⟨t, hnext, haccepted, -⟩ := exec_completes (i := .ffs a) nofun s
  refine ⟨t, respFfs s.cfg a, hnext, haccepted, searchResponse_r s.cfg a _, fun hnone => ?_,
    fun _ hi hhit hclear => respFfs_of_least hi hhit hclear⟩
  rw [respFfs_of_none_hit hnone]
  exact ⟨rfl, rfl⟩

/-- Settles O12: the response is "no match" or, with a lane hit, the lane of the highest designated bit set. -/
theorem flsFindsGreatestHitLane : Obligations.FlsFindsGreatestHitLane := by
  refine ⟨fun c a b => (decode_ok_iff c _ _).2 ⟨.FLS, rfl, rfl⟩, fun a s => ?_⟩
  obtain ⟨t, hnext, haccepted, -⟩ := exec_completes (i := .fls a) nofun s
  refine ⟨t, respFls s.cfg a, hnext, haccepted, searchResponse_r s.cfg a _, fun hnone => ?_,
    fun _ hi hhit hclear => respFls_of_greatest hi hhit hclear⟩
  rw [respFls_of_none_hit hnone]
  exact ⟨rfl, rfl⟩

/-- Settles O13: the response is the number of designated bits set, which is the number of lanes hit. -/
theorem popcCountsHitLanes : Obligations.PopcCountsHitLanes := by
  refine ⟨fun c a b => (decode_ok_iff c _ _).2 ⟨.POPC, rfl, rfl⟩, fun a s => ?_⟩
  obtain ⟨t, hnext, haccepted, -⟩ := exec_completes (i := .popc a) nofun s
  exact ⟨t, respPopc s.cfg a, hnext, haccepted, rfl,
    (respPopc_s_toNat s.cfg a).trans (hitCount_eq_length s.cfg a), rfl⟩

end Sys2Proof.Machine
end

section
/-! Base-10 decode (45_decode10.md): DECODE (R72, R73). -/

namespace Sys2Proof.Machine

open Sys2Proof

/-- On a block with a decoder every operation completes, and accepts the response of its rule (R19). -/
theorem exec_completes_of_hasDecode (i : Instr) {s : State} (h : s.cfg.hasDecode = true) :
    ∃ t, exec i s = .next t ∧ Accepted s t (respond s.cfg i) := by
  obtain hnext | ⟨-, habsent, -⟩ := exec_next_or_no_decoder i s
  · exact ⟨_, hnext, s.accept_accepted _⟩
  · simp [h] at habsent

/-- With a decoder built in, opcode 0x9 selects DECODE (R40). -/
theorem selectOp_decode {c : Config} (h : c.hasDecode = true) : selectOp c Mnemonic.DECODE.opcode = .ok .DECODE :=
  if_pos h

/-- In the domain a decimal number of L digits is below 10^L, so it fits the scalar result (S3 of R8). -/
theorem decimalValue_lt {c : Config} {a : Word} (h : c.hasDecode = true)
    (hdigits : ∀ k, k < c.lanes → lane c a k ≤ 9) : decimalValue c a < 2 ^ c.out :=
  (digitSum_lt c a c.lanes hdigits).trans_le (c.ten_pow_lanes_le h)

/-- In the domain and outside it DECODE answers a scalar (R72, R73). -/
theorem respDecode_r_noMatch (c : Config) (a : Word) : (respDecode c a).r = 0 ∧ (respDecode c a).noMatch = false := by
  unfold respDecode
  split <;> exact ⟨rfl, rfl⟩

/-- In the domain DECODE answers the decimal value exactly (R72). -/
theorem respDecode_s_of_digits {c : Config} {a : Word} (h : c.hasDecode = true)
    (hdigits : ∀ k, k < c.lanes → lane c a k ≤ 9) : (respDecode c a).s.toNat = decimalValue c a := by
  rw [respDecode, if_pos ((inDomain_iff c a).2 hdigits), scalarResponse_s_toNat (decimalValue_lt h hdigits)]

/-- Outside the domain DECODE answers the open function of the geometry and the operand, in OUT bits (R73). -/
theorem respDecode_s_of_not_digits {c : Config} {a : Word} (hdigits : ¬ ∀ k, k < c.lanes → lane c a k ≤ 9) :
    (respDecode c a).s = lowBits c.out (Config.decodeOutOfDomain c.n c.w c.out (lowBits c.n a)) := by
  rw [respDecode, if_neg (mt (inDomain_iff c a).1 hdigits), scalarResponse, BitVec.ofNat_toNat, BitVec.setWidth_eq]

/-- Settles O14: the response splits at the domain; inside it the recursion is the sum over the lanes, which the bound
S3 of R8 keeps exact. -/
theorem decodeReadsDecimalDigits : Obligations.DecodeReadsDecimalDigits := by
  refine ⟨fun c a b h => (decode_ok_iff c _ _).2 ⟨.DECODE, selectOp_decode h, rfl⟩, fun a s h => ?_⟩
  obtain ⟨t, hnext, haccepted⟩ := exec_completes_of_hasDecode (.decode a) h
  obtain ⟨hr, hnone⟩ := respDecode_r_noMatch s.cfg a
  exact ⟨t, respDecode s.cfg a, hnext, haccepted, hr, hnone,
    fun hdigits => (respDecode_s_of_digits h hdigits).trans (digitSum_eq_sum s.cfg a s.cfg.lanes),
    respDecode_s_of_not_digits⟩

end Sys2Proof.Machine
end

section
/-! Reset and hazards (70_reset_and_hazards.md): what a host that keeps its side receives after a reset (R88, R93). -/

namespace Sys2Proof.Machine

open Sys2Proof

/-! ### The host's cycles -/

theorem cycleAt_zero (xs : List PortCycle) : cycleAt xs 0 = xs.headD PortCycle.quiet := by
  cases xs <;> rfl

theorem cycleAt_tail (xs : List PortCycle) (k : Nat) : cycleAt xs.tail k = cycleAt xs (k + 1) := by
  cases xs <;> rfl

/-- A steady host keeps its side in every cycle, those after its plan's end included, and resets in none. -/
theorem steadyHost_cycleAt {c : Config} {xs : List PortCycle} (h : steadyHost c xs = true) (k : Nat) :
    permitted c (cycleAt xs k) = true ∧ (cycleAt xs k).rst = false := by
  cases hk : xs[k]? with
  | none => simp [cycleAt, hk, permitted, PortCycle.quiet]
  | some x =>
    have hx := List.all_eq_true.1 h x (List.mem_of_getElem? hk)
    simpa [cycleAt, hk] using hx

theorem steadyHost_tail {c : Config} {xs : List PortCycle} (h : steadyHost c xs = true) :
    steadyHost c xs.tail = true :=
  List.all_eq_true.2 fun x hx => List.all_eq_true.1 h x (List.mem_of_mem_tail hx)

/-- A permitted request decodes (R25, R45). -/
theorem decode_of_permitted {c : Config} {x : PortCycle} (h : permitted c x = true) (hrst : x.rst = false)
    (hvalid : x.valid = true) : ∃ i, decode c x.req = .ok i := by
  cases hm : selectOp c x.req.op with
  | ok m => exact ⟨_, (decode_ok_iff c x.req _).2 ⟨m, hm, rfl⟩⟩
  | error e => simp [permitted, hrst, hvalid, hm, Except.toBool] at h

/-! ### One step -/

theorem step_of_rst {s : State} (h : s.nextCycle.rst = true) : step s = .next s.consumed.flush :=
  if_pos h

theorem step_of_no_request {s : State} (hrst : s.nextCycle.rst = false) (hvalid : s.nextCycle.valid = false) :
    step s = .next s.consumed.idle := by
  simp [step, hrst, hvalid]

theorem step_of_request {s : State} {i : Instr} (hrst : s.nextCycle.rst = false) (hvalid : s.nextCycle.valid = true)
    (hdecode : decode s.cfg s.nextCycle.req = .ok i) : step s = exec i s.consumed := by
  simp [step, hrst, hvalid, hdecode]

/-- What a request decodes to completes on the block that decoded it: DECODE comes only from a block with a decoder
(R45). -/
theorem exec_of_decode {s : State} {q : Request} {i : Instr} (h : decode s.cfg q = .ok i) :
    exec i s = .next (s.accept (portExec s.cfg q)) := by
  rw [portExec_of_decode h]
  obtain hnext | ⟨hmnemonic, habsent, -⟩ := exec_next_or_no_decoder i s
  · exact hnext
  · obtain ⟨m, hm, rfl⟩ := (decode_ok_iff s.cfg q i).1 h
    rw [readOperands_mnemonic] at hmnemonic
    obtain ⟨m', hm', -, hdecoder⟩ | ⟨hreserved, -⟩ := selectOp_cases s.cfg q.op
    · have hsame : m = m' := Except.ok.inj (hm.symm.trans hm')
      simp [hdecoder (hsame ▸ hmnemonic)] at habsent
    · simp [hm] at hreserved

/-- What a cycle without reset puts into the in-flight storage: Exec's answer to its request, if it has one (R24). -/
def arrivalOf (c : Config) (x : PortCycle) : Option Response :=
  if x.valid then some (portExec c x.req) else none

/-- A permitted cycle without reset is one cycle of the in-flight storage, whatever it requests. -/
theorem step_of_permitted {s : State} (h : permitted s.cfg s.nextCycle = true) (hrst : s.nextCycle.rst = false) :
    step s = .next (s.consumed.clock (arrivalOf s.cfg s.nextCycle)) := by
  cases hvalid : s.nextCycle.valid with
  | false =>
    have hnone : arrivalOf s.cfg s.nextCycle = none := by simp [arrivalOf, hvalid]
    rw [hnone]
    exact step_of_no_request hrst hvalid
  | true =>
    obtain ⟨i, hi⟩ := decode_of_permitted h hrst hvalid
    have hsome : arrivalOf s.cfg s.nextCycle = some (portExec s.cfg s.nextCycle.req) := by simp [arrivalOf, hvalid]
    rw [hsome, step_of_request hrst hvalid hi]
    exact exec_of_decode hi

theorem step_of_steady {s : State} (h : steadyHost s.cfg s.inputs = true) :
    step s = .next (s.consumed.clock (arrivalOf s.cfg s.nextCycle)) := by
  obtain ⟨hpermitted, hrst⟩ := steadyHost_cycleAt h 0
  rw [cycleAt_zero] at hpermitted hrst
  exact step_of_permitted hpermitted hrst

/-! ### The in-flight storage as a delay line -/

/-- What the block will deliver `k` cycles from now, if no reset comes: first what is in flight, in its order, then
what the host's coming cycles put in. -/
def State.due (s : State) (k : Nat) : Option Response :=
  (s.pipe[k]?).getD (arrivalOf s.cfg (cycleAt s.inputs (k - s.pipe.length)))

/-- Within LATENCY cycles the block delivers what is in flight. -/
theorem State.due_of_pipe {s : State} {k : Nat} {slot : Option Response} (h : s.pipe[k]? = some slot) :
    s.due k = slot := by
  simp [State.due, h]

/-- Past what is in flight the block delivers the answers to the host's coming cycles. -/
theorem State.due_of_length_le {s : State} {k : Nat} (h : s.pipe.length ≤ k) :
    s.due k = arrivalOf s.cfg (cycleAt s.inputs (k - s.pipe.length)) := by
  simp [State.due, List.getElem?_eq_none h]

/-- The oldest slot, once the coming cycle's answer has entered behind, is what is due first. -/
theorem State.oldest_eq_due {s : State} {slot : Option Response} {rest : List (Option Response)}
    (h : s.pipe ++ [arrivalOf s.cfg s.nextCycle] = slot :: rest) : slot = s.due 0 := by
  rw [State.nextCycle, ← cycleAt_zero] at h
  cases hpipe : s.pipe with
  | nil =>
    rw [hpipe] at h
    rw [State.due_of_length_le (by simp [hpipe]), Nat.zero_sub]
    exact (List.cons.inj h).1.symm
  | cons oldest younger =>
    rw [hpipe] at h
    rw [State.due_of_pipe (slot := oldest) (by simp [hpipe])]
    exact (List.cons.inj h).1.symm

/-- A cycle without reset brings everything due one cycle nearer. -/
theorem State.due_clock (s : State) (k : Nat) :
    (s.consumed.clock (arrivalOf s.cfg s.nextCycle)).due k = s.due (k + 1) := by
  have hlength := clocked_pipe_length (s.consumed.clock_clocked (arrivalOf s.cfg s.nextCycle))
  rw [State.consumed_pipe] at hlength
  have hslot : (s.consumed.clock (arrivalOf s.cfg s.nextCycle)).pipe[k]? =
      (s.pipe ++ [arrivalOf s.cfg s.nextCycle])[k + 1]? := by simp
  rcases Nat.lt_trichotomy (k + 1) s.pipe.length with hlt | heq | hgt
  · rw [List.getElem?_append_left hlt, List.getElem?_eq_getElem hlt] at hslot
    rw [State.due_of_pipe hslot, State.due_of_pipe (List.getElem?_eq_getElem hlt)]
  · rw [heq, List.getElem?_concat_length] at hslot
    rw [State.due_of_pipe hslot, State.due_of_length_le heq.ge, heq, Nat.sub_self, cycleAt_zero, State.nextCycle]
  · rw [State.due_of_length_le (by omega), State.due_of_length_le (by omega), hlength, State.clock_cfg,
      State.clock_inputs, State.consumed_cfg, State.consumed_inputs, cycleAt_tail,
      Nat.sub_add_comm (by omega)]

/-- The response port carries the slot: `rsp_valid` tells a filled slot, and then the data ports show its response
(R18, R22). -/
def Carries (t : State) (slot : Option Response) : Prop :=
  t.rspValid = slot.isSome ∧ ∀ q, slot = some q → t.rsp = q

/-- A slot delivered where the ports can be trusted stands on them. -/
theorem carries_of_delivers {s t : State} {slot : Option Response} (hs : s.trusted = true)
    (h : Delivers s t slot) : Carries t slot := by
  unfold Delivers at h
  rw [if_pos hs] at h
  cases slot with
  | none => exact ⟨h.1, fun q hq => nomatch hq⟩
  | some q =>
    obtain ⟨hvalid, hrsp, -⟩ := h
    exact ⟨hvalid, fun q' hq => hrsp.trans (Option.some.inj hq)⟩

/-- A port that carries what a cycle put in shows what it owes for that cycle. -/
theorem answers_of_carries {c : Config} {t : State} {x : PortCycle} (h : Carries t (arrivalOf c x)) :
    Answers c t x := by
  obtain ⟨hvalid, hrsp⟩ := h
  refine ⟨?_, fun hx => hrsp _ (by simp [arrivalOf, hx])⟩
  rw [hvalid]
  cases hx : x.valid <;> simp [arrivalOf, hx]

/-- Where the ports can be trusted, a cycle without reset delivers the slot that was due. -/
theorem State.clock_carries_due {s : State} (hs : s.trusted = true) :
    Carries (s.consumed.clock (arrivalOf s.cfg s.nextCycle)) (s.due 0) := by
  obtain ⟨-, -, -, slot, hpipe, hdelivers⟩ := s.consumed.clock_clocked (arrivalOf s.cfg s.nextCycle)
  rw [← State.oldest_eq_due hpipe]
  exact carries_of_delivers hs hdelivers

/-- R24, R93: under a steady host, a block whose ports can be trusted delivers in each coming cycle exactly what is
due then. -/
theorem run_carries_due (k : Nat) {s : State} (hs : s.trusted = true) (hhost : steadyHost s.cfg s.inputs = true) :
    ∃ t : State, Host.Core.run Sys2Proof.core (k + 1) s = .next t ∧ Carries t (s.due k) := by
  induction k generalizing s with
  | zero => exact ⟨_, run_of_step_next (step_of_steady hhost) 0, State.clock_carries_due hs⟩
  | succ k ih =>
    rw [run_of_step_next (step_of_steady hhost), ← s.due_clock]
    exact ih (by simpa using hs) (by simpa using steadyHost_tail hhost)

/-! ### After a reset -/

theorem State.flush_pipe_length (s : State) : s.flush.pipe.length = s.cfg.latency := by simp

/-- R88: for LATENCY cycles after a reset nothing is due. -/
theorem State.due_flush_of_lt {s : State} {k : Nat} (h : k < s.cfg.latency) : s.flush.due k = none :=
  State.due_of_pipe (by simp [h])

/-- R93: from then on the answers to the host's cycles since the reset are due, each LATENCY cycles later. -/
theorem State.due_flush_of_le {s : State} {k : Nat} (h : s.cfg.latency ≤ k) :
    s.flush.due k = arrivalOf s.cfg (cycleAt s.inputs (k - s.cfg.latency)) := by
  rw [State.due_of_length_le (s.flush_pipe_length.trans_le h), State.flush_pipe_length, State.flush_cfg,
    State.flush_inputs]

/-- Settles O27: a reset leaves a delay line of LATENCY empty slots, behind which the answers to the host's cycles
come out. -/
theorem resetThenEveryRequestAnswered : Obligations.ResetThenEveryRequestAnswered := by
  intro s x xs hinputs hrst hhost
  have hnext : s.nextCycle = x := by simp [State.nextCycle, hinputs]
  refine ⟨s.consumed.flush, step_of_rst (hnext ▸ hrst), rfl, fun k => ?_⟩
  obtain ⟨t, hrun, hcarries⟩ := run_carries_due k s.consumed.flush_trusted (by simpa [hinputs] using hhost)
  refine ⟨t, hrun, fun hlt => ?_, fun hle => ?_⟩
  · have hdue : s.consumed.flush.due k = none := State.due_flush_of_lt hlt
    exact (hdue ▸ hcarries).1
  · have hdue : s.consumed.flush.due k = arrivalOf s.cfg (cycleAt xs (k - s.cfg.latency)) :=
      (State.due_flush_of_le (s := s.consumed) hle).trans (by simp [hinputs])
    exact answers_of_carries (hdue ▸ hcarries)

end Sys2Proof.Machine
end

section
/-! Encoding (30_encoding.md): the way from an instruction to its request word and back, and the host's lines (R46). -/

namespace Sys2Proof

theorem Config.w_le (c : Config) : c.w ≤ 128 := c.w_le_n.trans c.n_le

/-! ### Instruction to request word, and back -/

/-- An opcode of the table selects its own operation, DECODE where there is a decoder (R40). -/
theorem selectOp_opcode {c : Config} {m : Mnemonic} (h : m = .DECODE → c.hasDecode = true) :
    selectOp c m.opcode = .ok m := by
  cases m with
  | DECODE => exact if_pos (h rfl)
  | _ => rfl

/-- No two operations share an opcode: a block with a decoder reads each one's own back. -/
theorem opcode_injective : Function.Injective Mnemonic.opcode := by
  intro m m' h
  have hm : selectOp cfgA m.opcode = .ok m := selectOp_opcode fun _ => rfl
  have hm' : selectOp cfgA m'.opcode = .ok m' := selectOp_opcode fun _ => rfl
  exact Except.ok.inj (hm.symm.trans (h ▸ hm'))

/-- Only a block with a decoder has DECODE (R40). -/
theorem hasDecode_of_wellFormed {c : Config} {i : Instr} (h : i.wellFormed c = true) (hm : i.mnemonic = .DECODE) :
    c.hasDecode = true := by
  cases i with
  | decode a => exact (Bool.and_eq_true_iff.1 h).1
  | _ => exact Mnemonic.noConfusion hm

/-- A well-formed instruction reads its operands back from its own request. -/
theorem readOperands_encode {c : Config} {i : Instr} (h : i.wellFormed c = true) :
    readOperands c i.mnemonic (encode i) = i := by
  cases i with
  | msbs => rfl
  | bcast v => exact congrArg Instr.bcast (lowBits_of_fits h)
  | ffs a => exact congrArg Instr.ffs (lowBits_of_fits h)
  | fls a => exact congrArg Instr.fls (lowBits_of_fits h)
  | popc a => exact congrArg Instr.popc (lowBits_of_fits h)
  | decode a => exact congrArg Instr.decode (lowBits_of_fits (Bool.and_eq_true_iff.1 h).2)
  | add a b | sub a b | cmpeq a b | cmplt a b =>
    obtain ⟨ha, hb⟩ := Bool.and_eq_true_iff.1 h
    simp only [Instr.mnemonic, encode, readOperands, lowBits_of_fits ha, lowBits_of_fits hb]

theorem decode_encode {c : Config} {i : Instr} (h : i.wellFormed c = true) : decode c (encode i) = .ok i := by
  refine (decode_ok_iff c _ _).2 ⟨i.mnemonic, ?_, (readOperands_encode h).symm⟩
  rw [encode_op, selectOp_opcode (hasDecode_of_wellFormed h)]

theorem encode_fits {c : Config} {i : Instr} (h : i.wellFormed c = true) :
    fits c.n (encode i).a = true ∧ fits c.n (encode i).b = true := by
  cases i with
  | bcast v => exact Laws.FieldsFit.bcast v c h
  | msbs => exact Laws.FieldsFit.msbs c h
  | add a b => exact Laws.FieldsFit.add a b c h
  | sub a b => exact Laws.FieldsFit.sub a b c h
  | cmpeq a b => exact Laws.FieldsFit.cmpeq a b c h
  | cmplt a b => exact Laws.FieldsFit.cmplt a b c h
  | ffs a => exact Laws.FieldsFit.ffs a c h
  | fls a => exact Laws.FieldsFit.fls a c h
  | popc a => exact Laws.FieldsFit.popc a c h
  | decode a => exact Laws.FieldsFit.decode a c h

theorem toNat_lt_of_fits {k : Nat} {x : Word} (h : fits k x = true) : x.toNat < 2 ^ k := of_decide_eq_true h

/-- Two n-bit digits below a third one: the number is read back digit by digit. -/
theorem three_fields_read {n a b : Nat} (ha : a < 2 ^ n) (hb : b < 2 ^ n) (op : Nat) :
    (op * 2 ^ (2 * n) + b * 2 ^ n + a) / 2 ^ (2 * n) = op ∧
      (op * 2 ^ (2 * n) + b * 2 ^ n + a) / 2 ^ n % 2 ^ n = b ∧ (op * 2 ^ (2 * n) + b * 2 ^ n + a) % 2 ^ n = a := by
  have hpos : 0 < 2 ^ n := by positivity
  have hsum : op * 2 ^ (2 * n) + b * 2 ^ n + a = a + 2 ^ n * (b + 2 ^ n * op) := by rw [two_mul, pow_add]; ring
  have hhigh : (a + 2 ^ n * (b + 2 ^ n * op)) / 2 ^ n = b + 2 ^ n * op := by
    rw [Nat.add_mul_div_left _ _ hpos, Nat.div_eq_of_lt ha, Nat.zero_add]
  rw [hsum, hhigh]
  refine ⟨?_, ?_, ?_⟩
  · rw [two_mul, pow_add, ← Nat.div_div_eq_div_mul, hhigh, Nat.add_mul_div_left _ _ hpos, Nat.div_eq_of_lt hb,
      Nat.zero_add]
  · rw [Nat.add_mul_mod_self_left, Nat.mod_eq_of_lt hb]
  · rw [Nat.add_mul_mod_self_left, Nat.mod_eq_of_lt ha]

/-- A carrier of w bits holds every number of at most k ≤ w bits. -/
theorem toNat_ofNat_of_lt_le {w k x : Nat} (hx : x < 2 ^ k) (hk : k ≤ w) : (BitVec.ofNat w x).toNat = x := by
  rw [BitVec.toNat_ofNat, Nat.mod_eq_of_lt (hx.trans_le (Nat.pow_le_pow_right two_pos hk))]

/-- A request of N-bit operands is packed without loss: the 2N + 4 bits of `REQ` fit the carrier (R37). -/
theorem packReq_toNat {c : Config} {q : Request} (ha : fits c.n q.a = true) (hb : fits c.n q.b = true) :
    (packReq c q).toNat = q.op.toNat * 2 ^ (2 * c.n) + q.b.toNat * 2 ^ c.n + q.a.toNat ∧
      (packReq c q).toNat < 2 ^ (2 * c.n + 4) := by
  have ha' := toNat_lt_of_fits ha
  have hb' := toNat_lt_of_fits hb
  have hlow : q.b.toNat * 2 ^ c.n + q.a.toNat < 2 ^ (2 * c.n) :=
    calc q.b.toNat * 2 ^ c.n + q.a.toNat < (q.b.toNat + 1) * 2 ^ c.n := by rw [Nat.add_mul]; omega
      _ ≤ 2 ^ c.n * 2 ^ c.n := Nat.mul_le_mul_right _ hb'
      _ = 2 ^ (2 * c.n) := by rw [two_mul, pow_add]
  have hword : q.op.toNat * 2 ^ (2 * c.n) + q.b.toNat * 2 ^ c.n + q.a.toNat < 2 ^ (2 * c.n + 4) :=
    calc _ < (q.op.toNat + 1) * 2 ^ (2 * c.n) := by rw [Nat.add_mul]; omega
      _ ≤ 2 ^ 4 * 2 ^ (2 * c.n) := Nat.mul_le_mul_right _ q.op.isLt
      _ = 2 ^ (2 * c.n + 4) := by rw [← pow_add, Nat.add_comm]
  have hvalue : (packReq c q).toNat = q.op.toNat * 2 ^ (2 * c.n) + q.b.toNat * 2 ^ c.n + q.a.toNat := by
    rw [packReq, Nat.mod_eq_of_lt ha', Nat.mod_eq_of_lt hb',
      toNat_ofNat_of_lt_le hword (by have := c.n_le; omega)]
  exact ⟨hvalue, hvalue.trans_lt hword⟩

/-- A request of N-bit operands is read back from its word. -/
theorem unpackReq_packReq {c : Config} {q : Request} (ha : fits c.n q.a = true) (hb : fits c.n q.b = true) :
    unpackReq c (packReq c q) = .ok q := by
  obtain ⟨hvalue, hlt⟩ := packReq_toNat ha hb
  obtain ⟨hop, hhigh, hlow⟩ := three_fields_read (toNat_lt_of_fits ha) (toNat_lt_of_fits hb) q.op.toNat
  rw [unpackReq_of_lt hlt, wordFields, hvalue, hop, hhigh, hlow]
  simp

theorem decodeReq_of_unpackReq {c : Config} {w : ReqWord} {q : Request} (h : unpackReq c w = .ok q) :
    decodeReq c w = decode c q := by
  simp only [decodeReq, h]

/-- Settles O32: the operands of a well-formed instruction have N bits, so the word keeps its request, which decodes
back to it. -/
theorem decodeEncodeRoundTrip : Obligations.DecodeEncodeRoundTrip := by
  intro c i h
  obtain ⟨ha, hb⟩ := encode_fits h
  exact (decodeReq_of_unpackReq (unpackReq_packReq ha hb)).trans (decode_encode h)

/-- A reserved opcode decodes to no instruction (R45). -/
theorem decode_of_reserved {c : Config} {q : Request}
    (h : 10 ≤ q.op.toNat ∨ (q.op = 0x9#4 ∧ c.hasDecode = false)) : decode c q = .error (.reservedOpcode q.op) := by
  obtain ⟨i, -, hop, hdecoder⟩ | ⟨hreserved, -⟩ := opcodeAloneSelectsOperation c q
  · have hlt : i.mnemonic.opcode.toNat < 10 := by cases i.mnemonic <;> decide
    rw [hop] at h
    obtain hle | ⟨hnine, habsent⟩ := h
    · omega
    · have hmnemonic : i.mnemonic = .DECODE := opcode_injective hnine
      simp [hdecoder hmnemonic] at habsent
  · exact hreserved

/-- Settles O36: the words are packed requests, two of them the encodings of the instructions listed. -/
theorem writtenOutWordsDecode : Obligations.WrittenOutWordsDecode := by
  refine ⟨?_, ?_, ?_, by decide, by decide⟩
  · exact decodeEncodeRoundTrip cfgA (.sub 0x31323334353637383938373635343332 0x30303030303030303030303030303030)
      (by decide)
  · exact decodeEncodeRoundTrip cfgA (.decode 0x01020304050607080908070605040302) (by decide)
  · exact (decodeReq_of_unpackReq (unpackReq_packReq (q := ⟨0xA, 0x01020304050607080908070605040302, 0⟩) (by decide)
      (by decide))).trans (decode_of_reserved (.inl (by decide)))

namespace Machine

/-! ### The bits that a class reads -/

/-- The request of a well-formed instruction is zero in every bit that its operation does not read (R46). -/
theorem encode_unreadBitsZero {c : Config} {i : Instr} (h : i.wellFormed c = true) :
    unreadBitsZero c i.mnemonic (encode i) := by
  cases i with
  | msbs => exact ⟨rfl, rfl⟩
  | bcast v => exact ⟨h, rfl⟩
  | ffs a => exact ⟨h, rfl⟩
  | fls a => exact ⟨h, rfl⟩
  | popc a => exact ⟨h, rfl⟩
  | decode a => exact ⟨(Bool.and_eq_true_iff.1 h).2, rfl⟩
  | add a b | sub a b | cmpeq a b | cmplt a b => exact Bool.and_eq_true_iff.1 h

/-- What an operation reads of a request is well formed where the operation exists (R38, R40). -/
theorem readOperands_wellFormed {c : Config} {m : Mnemonic} (q : Request) (h : m = .DECODE → c.hasDecode = true) :
    (readOperands c m q).wellFormed c = true := by
  cases m with
  | MSBS => rfl
  | BCAST => exact lowBits_fits c.w_le q.a
  | FFS | FLS | POPC => exact lowBits_fits c.n_le q.a
  | DECODE => exact Bool.and_eq_true_iff.2 ⟨h rfl, lowBits_fits c.n_le q.a⟩
  | ADD | SUB | CMPEQ | CMPLT => exact Bool.and_eq_true_iff.2 ⟨lowBits_fits c.n_le q.a, lowBits_fits c.n_le q.b⟩

/-- The encoding of what an operation reads agrees with the request in the bits that were read. -/
theorem sameReadBits_encode_readOperands {c : Config} {q : Request} {m : Mnemonic} (hm : selectOp c q.op = .ok m) :
    sameReadBits c q (encode (readOperands c m q)) := by
  have hn : ∀ x, lowBits c.n x = lowBits c.n (lowBits c.n x) := fun x => (lowBits_lowBits c.n_le x).symm
  obtain ⟨m₀, hm₀, hop, -⟩ | ⟨hreserved, -⟩ := selectOp_cases c q.op
  · obtain rfl : m₀ = m := Except.ok.inj (hm₀.symm.trans hm)
    refine ⟨by rw [encode_op, readOperands_mnemonic, hop], fun m' hm' => ?_⟩
    obtain rfl : m₀ = m' := Except.ok.inj (hm.symm.trans hm')
    cases m₀ with
    | MSBS => trivial
    | BCAST => exact (lowBits_lowBits c.w_le q.a).symm
    | FFS | FLS | POPC | DECODE => exact hn q.a
    | ADD | SUB | CMPEQ | CMPLT => exact ⟨hn q.a, hn q.b⟩
  · simp [hm] at hreserved

/-- Settles O33: the instruction holds the low bits that its operation reads of the request, so it is well formed and
its encoding agrees with the request in them. -/
theorem encodeDecodeKeepsReadBits : Obligations.EncodeDecodeKeepsReadBits := by
  intro c q i hdecode
  obtain ⟨m, hm, rfl⟩ := (decode_ok_iff c q i).1 hdecode
  obtain ⟨m', hm', -, hdecoder⟩ | ⟨hreserved, -⟩ := selectOp_cases c q.op
  · obtain rfl : m = m' := Except.ok.inj (hm.symm.trans hm')
    have hwf := readOperands_wellFormed q hdecoder
    exact ⟨hwf, sameReadBits_encode_readOperands hm, encode_unreadBitsZero hwf⟩
  · simp [hm] at hreserved

/-- Requests that agree in the bits their operation reads and are zero in the others are one request. -/
theorem eq_of_sameReadBits {c : Config} {m : Mnemonic} {p q : Request} (hm : selectOp c p.op = .ok m)
    (h : sameReadBits c p q) (hp : unreadBitsZero c m p) (hq : unreadBitsZero c m q) : p = q := by
  obtain ⟨hop, hread⟩ := h
  have hsame : ∀ {k : Nat} {x y : Word}, fits k x = true → fits k y = true → lowBits k x = lowBits k y → x = y :=
    fun hx hy hxy => (lowBits_of_fits hx).symm.trans (hxy.trans (lowBits_of_fits hy))
  have hbits := hread m hm
  obtain ⟨opcode, a, b⟩ := p
  obtain ⟨opcode', a', b'⟩ := q
  obtain rfl : opcode = opcode' := hop
  suffices hab : a = a' ∧ b = b' by rw [hab.1, hab.2]
  unfold unreadBitsZero at hp hq
  cases hclass : operandClass m <;> simp only [hclass] at hbits hp hq
  case N0 => exact ⟨hp.1.trans hq.1.symm, hp.2.trans hq.2.symm⟩
  case V1 => exact ⟨hsame hp.1 hq.1 hbits, hp.2.trans hq.2.symm⟩
  case A1 => exact ⟨hsame hp.1 hq.1 hbits, hp.2.trans hq.2.symm⟩
  case A2 => exact ⟨hsame hp.1 hq.1 hbits.1, hsame hp.2 hq.2 hbits.2⟩

/-- A request with zeros in its unread bits is the encoding of what it decodes to. -/
theorem eq_encode_of_decode {c : Config} {m : Mnemonic} {q : Request} {i : Instr} (hop : q.op = m.opcode)
    (hzero : unreadBitsZero c m q) (h : decode c q = .ok i) : q = encode i := by
  obtain ⟨-, hsame, hunread⟩ := encodeDecodeKeepsReadBits c q i h
  have hmnemonic : m = i.mnemonic := opcode_injective (hop.symm.trans (hsame.1.trans (encode_op i)))
  subst hmnemonic
  obtain ⟨m', hm', rfl⟩ := (decode_ok_iff c q i).1 h
  rw [readOperands_mnemonic] at hzero hunread
  exact eq_of_sameReadBits hm' hsame hzero hunread

/-! ### Listing lines -/

/-- The names that a line of each class takes for its operands (R46). -/
def sourceNames : OperandClass → List Source
  | .N0 => []
  | .V1 => [.name "x"]
  | .A1 => [.name "x"]
  | .A2 => [.name "x", .name "y"]

/-- A host that holds the operands of a request under those names. -/
def heldOperands (q : Request) : List (String × HostValue) := [("x", ⟨q.a, false⟩), ("y", ⟨q.b, false⟩)]

@[simp] theorem lookupName_heldOperands_x (q : Request) : lookupName (heldOperands q) "x" = .ok q.a := rfl

@[simp] theorem lookupName_heldOperands_y (q : Request) : lookupName (heldOperands q) "y" = .ok q.b := rfl

/-- A request with zeros in its unread bits is the request of a line over the operands by name. -/
theorem lineRequest_of_unreadBitsZero {c : Config} {m : Mnemonic} {q : Request} (hop : q.op = m.opcode)
    (h : unreadBitsZero c m q) :
    lineRequest c (heldOperands q) ⟨"z", m, sourceNames (operandClass m)⟩ = .ok q := by
  obtain ⟨opcode, a, b⟩ := q
  obtain rfl : opcode = m.opcode := hop
  unfold unreadBitsZero at h
  cases hclass : operandClass m <;> simp only [hclass] at h <;> obtain ⟨ha, hb⟩ := h
  case N0 => simp [lineRequest, hclass, sourceNames, ha, hb]
  case V1 => simp [lineRequest, hclass, sourceNames, Except.map, lowBits_of_fits ha, hb]
  case A1 => simp [lineRequest, hclass, sourceNames, Except.map, lowBits_of_fits ha, hb]
  case A2 => simp [lineRequest, hclass, sourceNames, lowBits_of_fits ha, lowBits_of_fits hb]

/-- The request of any line has its mnemonic's opcode and zeros in the bits that the operation does not read. -/
theorem lineRequest_ok {c : Config} {env : List (String × HostValue)} {l : Line} {q : Request}
    (h : lineRequest c env l = .ok q) : q.op = l.mnemonic.opcode ∧ unreadBitsZero c l.mnemonic q := by
  unfold lineRequest at h
  unfold unreadBitsZero
  split at h
  · next hclass _ =>
    obtain rfl := Except.ok.inj h
    simp [hclass]
  · next v hclass _ =>
    split at h
    · next hv =>
      obtain rfl := Except.ok.inj h
      have hfits : fits c.w (BitVec.ofNat 128 v) = true := decide_eq_true ((Nat.mod_le v (2 ^ 128)).trans_lt hv)
      simp [hclass, hfits]
    · exact Except.noConfusion rfl rfl (heq_of_eq h)
  · next x hclass _ =>
    cases hx : lookupName env x <;> rw [hx] at h
    · exact Except.noConfusion rfl rfl (heq_of_eq h)
    · obtain rfl := Except.ok.inj h
      simp [hclass, lowBits_fits c.w_le]
  · next x hclass _ =>
    cases hx : lookupName env x <;> rw [hx] at h
    · exact Except.noConfusion rfl rfl (heq_of_eq h)
    · obtain rfl := Except.ok.inj h
      simp [hclass, lowBits_fits c.n_le]
  · next x y hclass _ =>
    split at h
    · obtain rfl := Except.ok.inj h
      simp [hclass, lowBits_fits c.n_le]
    · exact Except.noConfusion rfl rfl (heq_of_eq h)
    · exact Except.noConfusion rfl rfl (heq_of_eq h)
  · exact Except.noConfusion rfl rfl (heq_of_eq h)

/-- Settles O37: an instruction's line names its operands, a line's request has zeros in its unread bits, and the
literal's bound is the test of the line. -/
theorem listingLinesReachEveryInstruction : Obligations.ListingLinesReachEveryInstruction := by
  refine ⟨fun c i hwf => ?_, fun c env l q hline => ?_, fun c env dst v hv => if_neg hv.not_gt⟩
  · exact ⟨_, _, lineRequest_of_unreadBitsZero (encode_op i) (encode_unreadBitsZero hwf)⟩
  · obtain ⟨hop, hzero⟩ := lineRequest_ok hline
    exact ⟨hop, hzero, fun i hdecode => eq_encode_of_decode hop hzero hdecode⟩

end Machine

end Sys2Proof
end

section
/-! State and reset (10_state.md, 60_exceptions.md, 70_reset_and_hazards.md): what one step does, what every step keeps,
and what a run of a host that keeps its side shows. -/

namespace Sys2Proof.Machine

open Sys2Proof

/-! ### Whole states -/

/-- Using up the host's coming port values touches nothing that being whole reads. -/
@[simp] theorem State.consumed_whole (s : State) : s.consumed.whole = s.whole := rfl

/-- Settles O23: a reset cycle makes any state whole, and what arrives in any other cycle is an empty slot or the
response to an instruction, which is whole. -/
theorem stepKeepsStateWhole : Obligations.StepKeepsStateWhole := by
  intro s t hs hstep
  have hwhole : s.consumed.whole = true := s.consumed_whole.trans hs
  obtain ⟨-, rfl⟩ | ⟨-, -, rfl⟩ | ⟨-, -, i, -, rfl⟩ := step_next_cases hstep
  · exact s.consumed.flush_whole
  · exact s.consumed.clock_whole none hwhole rfl
  · exact s.consumed.clock_whole (some (respond s.cfg i)) hwhole (respond_whole s.cfg i)

theorem State.resetOf_whole (c : Config) : (State.resetOf c).whole = true := by
  have hnone : ∀ x ∈ (State.resetOf c).pipe, x = none := fun x hx => List.eq_of_mem_replicate hx
  refine (State.whole_iff _).2 ⟨by simp, fun x hx => ?_, by simp [Response.fitsPorts], fun _ => ⟨fun x hx => ?_, nofun⟩⟩
  all_goals rw [hnone x hx]; rfl

/-- At power-on the slots have the ports' widths; more is owed only where the ports can be trusted, and then there is
no slot (R89). -/
theorem State.powerOn_whole (c : Config) : (State.powerOn c).whole = true := by
  refine State.drive_whole (powerOnStorage c) none (by simp [powerOnStorage]) (fun x hx => ?_) fun htrusted => ⟨?_, rfl⟩
  · obtain ⟨k, -, rfl⟩ := List.mem_map.1 hx
    exact powerOnSlot_fits c k
  · have hlatency : c.latency = 0 := of_decide_eq_true htrusted
    simp [powerOnStorage, hlatency]

/-- Settles O24: State.reset is the reset state of CFG-A. -/
theorem resetStateIsWhole : Obligations.ResetStateIsWhole :=
  ⟨fun c => ⟨State.resetOf_whole c, State.powerOn_whole c⟩, State.resetOf_whole cfgA⟩

/-- Settles O25: a step in a cycle with reset is the cycle that empties the block. -/
theorem resetCycleMakesAnyStateWhole : Obligations.ResetCycleMakesAnyStateWhole := by
  intro s t hrst hstep
  obtain rfl : s.consumed.flush = t := Host.Outcome.next.inj ((step_of_rst hrst).symm.trans hstep)
  exact s.consumed.flush_whole

/-- Settles O4: the fields of the reset state as they are written. -/
theorem resetLeavesBlockEmpty : Obligations.ResetLeavesBlockEmpty :=
  ⟨fun c => ⟨State.resetOf_cfg c, State.resetOf_pipe c, State.resetOf_rspValid c⟩, rfl⟩

/-! ### One step -/

theorem State.nextCycle_of_cons {s : State} {x : PortCycle} {rest : List PortCycle} (h : s.inputs = x :: rest) :
    s.nextCycle = x := by
  simp [State.nextCycle, h]

theorem State.consumed_of_cons {s : State} {x : PortCycle} {rest : List PortCycle} (h : s.inputs = x :: rest) :
    s.consumed = { s with inputs := rest } := by
  simp [State.consumed, h]

/-- Settles O15: the step decodes the request of the host's next cycle. -/
theorem stepRunsDecodedInstruction : Obligations.StepRunsDecodedInstruction := by
  intro s x rest i hinputs hrst hvalid hdecode
  obtain rfl := State.nextCycle_of_cons hinputs
  rw [step_of_request hrst hvalid hdecode, State.consumed_of_cons hinputs]

/-- Settles O16: placing a word plans a cycle that presents its request, in place of the host's next one. -/
theorem placedTableWordRunsNext : Obligations.PlacedTableWordRunsNext := by
  intro s nbits w i hdecode
  exact step_of_request (s := s.withFetchWord nbits w) rfl rfl hdecode

theorem step_of_decode_error {s : State} {e : DecodeError} (hrst : s.nextCycle.rst = false)
    (hvalid : s.nextCycle.valid = true) (h : decode s.cfg s.nextCycle.req = .error e) :
    step s = .refused (.reservedOpcode s.nextCycle.req.op) := by
  simp [step, hrst, hvalid, h]

/-- Settles O18: a request either decodes, and what it decodes to completes, or its opcode is reserved. -/
theorem stepStopsOnlyOnReserved : Obligations.StepStopsOnlyOnReserved := by
  intro s
  cases hrst : s.nextCycle.rst with
  | true => exact .inl ⟨_, step_of_rst hrst⟩
  | false =>
    cases hvalid : s.nextCycle.valid with
    | false => exact .inl ⟨_, step_of_no_request hrst hvalid⟩
    | true =>
      obtain ⟨i, hdecode, -⟩ | ⟨hreserved, hwhich⟩ := opcodeAloneSelectsOperation s.cfg s.nextCycle.req
      · exact .inl ⟨_, (step_of_request hrst hvalid hdecode).trans (exec_of_decode (s := s.consumed) hdecode)⟩
      · exact .inr ⟨rfl, rfl, hwhich, step_of_decode_error hrst hvalid hreserved⟩

theorem State.clockPort_of_rst {x : PortCycle} (s : State) (h : x.rst = true) : s.clockPort x = s.flush := if_pos h

theorem State.clockPort_of_no_request {x : PortCycle} (s : State) (hrst : x.rst = false) (hvalid : x.valid = false) :
    s.clockPort x = s.idle := by
  simp [State.clockPort, hrst, hvalid]

theorem State.clockPort_of_request {x : PortCycle} (s : State) (hrst : x.rst = false) (hvalid : x.valid = true) :
    s.clockPort x = s.accept (portExec s.cfg x.req) := by
  simp [State.clockPort, hrst, hvalid]

/-- Settles O17: a reserved opcode does not decode, so the step refuses it and Exec answers all zeros. -/
theorem reservedOpcodesAreRefused : Obligations.ReservedOpcodesAreRefused := by
  intro s x rest hinputs hrst hvalid hreserved
  obtain rfl := State.nextCycle_of_cons hinputs
  have hdecode := decode_of_reserved hreserved
  refine ⟨step_of_decode_error hrst hvalid hdecode, fun a habsent => ?_, ?_⟩
  · obtain hnext | ⟨-, -, hrefused⟩ := exec_next_or_no_decoder (.decode a) s
    · simp [exec, execDecode, habsent] at hnext
    · exact hrefused
  · have hexec : portExec s.cfg s.nextCycle.req = reservedResponse := by simp only [portExec, hdecode]
    rw [s.clockPort_of_request hrst hvalid, hexec]
    exact s.accept_accepted reservedResponse

/-- Settles O21: the three cases of a step that answers next are the three cases of the port-level cycle. -/
theorem stepFollowsThePorts : Obligations.StepFollowsThePorts := by
  intro s t hstep
  obtain ⟨hrst, rfl⟩ | ⟨hrst, hvalid, rfl⟩ | ⟨hrst, hvalid, i, hdecode, rfl⟩ := step_next_cases hstep
  · exact (s.consumed.clockPort_of_rst hrst).symm
  · exact (s.consumed.clockPort_of_no_request hrst hvalid).symm
  · rw [s.consumed.clockPort_of_request hrst hvalid, State.consumed_cfg, portExec_of_decode hdecode]

/-- Settles O19: a cycle without reset and request, planned or not, is the idle cycle. -/
theorem quietCycleOnlyMovesPipe : Obligations.QuietCycleOnlyMovesPipe := by
  constructor
  · intro s x rest hinputs hrst hvalid
    obtain rfl := State.nextCycle_of_cons hinputs
    rw [← State.consumed_of_cons hinputs]
    exact ⟨_, step_of_no_request hrst hvalid, s.consumed.idle_clocked⟩
  · intro s hinputs
    have hquiet : s.nextCycle = .quiet := by simp [State.nextCycle, hinputs]
    have hsame : s.consumed = s := by rw [State.consumed, hinputs, List.tail_nil, ← hinputs]
    refine ⟨_, step_of_no_request (by rw [hquiet]; rfl) (by rw [hquiet]; rfl), ?_⟩
    rw [hsame]
    exact s.idle_clocked

/-- Settles O20: a step in a cycle with reset is the cycle that empties the block. -/
theorem resetCycleEmptiesBlock : Obligations.ResetCycleEmptiesBlock := by
  intro s x rest hinputs hrst
  obtain rfl := State.nextCycle_of_cons hinputs
  exact ⟨s.consumed.flush, step_of_rst hrst, rfl, congrArg List.tail hinputs, rfl, rfl, s.consumed.flush_trusted⟩

/-- Settles O22: no cycle of the block writes the parameters or the host's coming port values. -/
theorem stepKeepsParameters : Obligations.StepKeepsParameters := by
  intro s t hstep
  obtain ⟨-, rfl⟩ | ⟨-, -, rfl⟩ | ⟨-, -, i, -, rfl⟩ := step_next_cases hstep
  · exact ⟨rfl, rfl⟩
  · exact ⟨s.consumed.clock_cfg none, s.consumed.clock_inputs none⟩
  · exact ⟨s.consumed.clock_cfg _, s.consumed.clock_inputs _⟩

/-! ### Power-on -/

/-- Before the first reset of a block with LATENCY > 0, a cycle without reset shows the next free values, whatever
arrives (R89). -/
theorem State.clock_of_untrusted {s : State} (h : s.trusted = false) (arrival : Option Response) :
    s.clock arrival = State.showUnknown { s with pipe := (s.pipe ++ [arrival]).tail } :=
  State.drive_of_untrusted (s := { s with pipe := (s.pipe ++ [arrival]).tail }) h _

/-- A step in a cycle without reset is one cycle of the in-flight storage, whatever arrives. -/
theorem step_next_of_no_rst {s t : State} (hrst : s.nextCycle.rst = false) (h : step s = .next t) :
    ∃ arrival, t = s.consumed.clock arrival := by
  obtain ⟨hreset, -⟩ | ⟨-, -, rfl⟩ | ⟨-, -, i, -, rfl⟩ := step_next_cases h
  · simp [hrst] at hreset
  · exact ⟨none, rfl⟩
  · exact ⟨_, rfl⟩

/-- Settles O56: only a reset cycle sets the mark of a reset, and a block whose ports cannot be trusted shows free
values in every other cycle. -/
theorem outputsAreUnknownBeforeFirstReset : Obligations.OutputsAreUnknownBeforeFirstReset := by
  refine ⟨fun c => ⟨State.powerOn_cfg c, State.powerOn_resetSeen c, by simp⟩, fun s t hstep => ?_⟩
  cases hrst : s.nextCycle.rst with
  | true =>
    obtain rfl : s.consumed.flush = t := Host.Outcome.next.inj ((step_of_rst hrst).symm.trans hstep)
    exact ⟨by simp, nofun⟩
  | false =>
    obtain ⟨arrival, rfl⟩ := step_next_of_no_rst hrst hstep
    refine ⟨by simp, fun huntrusted _ => ?_⟩
    rw [State.clock_of_untrusted (s := s.consumed) huntrusted]
    exact ⟨rfl, rfl, rfl⟩

/-! ### Runs -/

theorem nextCycle_permitted {s : State} (h : s.inputs.all (permitted s.cfg) = true) :
    permitted s.cfg s.nextCycle = true := by
  cases hinputs : s.inputs with
  | nil => simp [State.nextCycle, hinputs, permitted, PortCycle.quiet]
  | cons x rest =>
    rw [State.nextCycle_of_cons hinputs]
    exact List.all_eq_true.1 h x (by simp [hinputs])

/-- A permitted cycle is never refused, with reset or without. -/
theorem step_next_of_permitted {s : State} (h : permitted s.cfg s.nextCycle = true) : ∃ t, step s = .next t := by
  cases hrst : s.nextCycle.rst with
  | true => exact ⟨_, step_of_rst hrst⟩
  | false => exact ⟨_, step_of_permitted h hrst⟩

/-- Settles O26, by induction on the number of steps: a permitted cycle answers next, and what the host has planned
after it is permitted too. -/
theorem permittedHostIsNeverStopped : Obligations.PermittedHostIsNeverStopped := by
  intro k
  induction k with
  | zero => exact fun s _ => ⟨s, rfl, rfl, rfl⟩
  | succ k ih =>
    intro s h
    obtain ⟨s', hstep⟩ := step_next_of_permitted (nextCycle_permitted h)
    obtain ⟨hcfg, hinputs⟩ := stepKeepsParameters s s' hstep
    have hlater : s'.inputs.all (permitted s'.cfg) = true := by
      rw [hcfg, hinputs]
      exact List.all_eq_true.2 fun x hx => List.all_eq_true.1 h x (List.mem_of_mem_tail hx)
    obtain ⟨t, hrun, htcfg, htinputs⟩ := ih s' hlater
    refine ⟨t, (run_of_step_next hstep k).trans hrun, htcfg.trans hcfg, ?_⟩
    rw [htinputs, hinputs, List.drop_tail]

/-- Settles O28: what is in flight is what is due first. -/
theorem inFlightResponsesLeaveInOrder : Obligations.InFlightResponsesLeaveInOrder := by
  intro s htrusted hhost k slot hslot
  obtain ⟨t, hrun, hvalid, hrsp⟩ := run_carries_due k htrusted hhost
  rw [State.due_of_pipe hslot] at hvalid hrsp
  exact ⟨t, hrun, hvalid, hrsp⟩

/-- A block that stores nothing answers each cycle of a steady host in that cycle. -/
theorem run_answers_of_pipe_nil {s : State} (hpipe : s.pipe = []) (htrusted : s.trusted = true)
    (hhost : steadyHost s.cfg s.inputs = true) (k : Nat) :
    ∃ t, Host.Core.run Sys2Proof.core (k + 1) s = .next t ∧ Answers s.cfg t (cycleAt s.inputs k) := by
  obtain ⟨t, hrun, hcarries⟩ := run_carries_due k htrusted hhost
  rw [State.due_of_length_le (by simp [hpipe]), hpipe, List.length_nil, Nat.sub_zero] at hcarries
  exact ⟨t, hrun, answers_of_carries hcarries⟩

/-- Settles O57: with LATENCY 0 nothing is in flight at power-on, and the ports can be trusted. -/
theorem powerOnWithoutLatencyNeedsNoReset : Obligations.PowerOnWithoutLatencyNeedsNoReset := by
  intro c xs k hlatency hhost
  have hcfg := State.powerOn_cfg c
  have htrusted := (State.powerOn_trusted c).trans (decide_eq_true hlatency)
  have hpipe : (State.powerOn c).pipe = [] := by simp [hlatency]
  obtain ⟨t, hrun, hanswers⟩ :=
    run_answers_of_pipe_nil (s := { State.powerOn c with inputs := xs }) hpipe htrusted (hcfg.symm ▸ hhost) k
  exact ⟨t, hrun, hcfg ▸ hanswers⟩

end Sys2Proof.Machine
end

section
/-! Parameters, logarithms and lane pairs (00_scope.md, 41_log_helpers.md, 20_memory.md): W, L and N are powers of two. -/

namespace Sys2Proof

/-! ### Legal parameter sets -/

/-- Every admitted width is a power of two (R4, R6). -/
theorem exists_two_pow_of_mem_admittedWidths {k : Nat} (h : k ∈ admittedWidths) : ∃ m, m ≤ 7 ∧ k = 2 ^ m := by
  rcases mem_admittedWidths h with rfl | rfl | rfl | rfl | rfl
  exacts [⟨3, by decide⟩, ⟨4, by decide⟩, ⟨5, by decide⟩, ⟨6, by decide⟩, ⟨7, by decide⟩]

/-- W and L divide N, so they are powers of two with it (R5). -/
theorem Config.w_lanes_two_pow (c : Config) : ∃ j k, c.w = 2 ^ j ∧ c.lanes = 2 ^ k ∧ j + k ≤ 7 := by
  obtain ⟨m, hm, hn⟩ := exists_two_pow_of_mem_admittedWidths c.legal_cases.1
  have hproduct : c.lanes * c.w = 2 ^ m := c.lanes_mul_w.trans hn
  obtain ⟨j, -, hj⟩ := (Nat.dvd_prime_pow Nat.prime_two).1 (Dvd.intro_left _ hproduct)
  obtain ⟨k, -, hk⟩ := (Nat.dvd_prime_pow Nat.prime_two).1 (Dvd.intro _ hproduct)
  rw [hj, hk, ← pow_add, Nat.pow_right_inj (le_refl 2)] at hproduct
  exact ⟨j, k, hj, hk, by omega⟩

/-- A lane of a decoder holds a decimal digit (S2 of R8). -/
theorem Config.nine_lt_two_pow_w (c : Config) (h : c.hasDecode = true) : 9 < 2 ^ c.w := by
  obtain ⟨-, -, -, -, hdecode⟩ := c.legal_cases
  calc 9 < 2 ^ 4 := by norm_num
    _ ≤ 2 ^ c.w := Nat.pow_le_pow_right two_pos (hdecode h).1

/-- Settles O2: the powers of two come from R4 and R5, the bounds from R8. -/
theorem legalParametersShape : Obligations.LegalParametersShape := fun c =>
  ⟨c.w_lanes_two_pow, c.lanes_mul_w, c.lanes_lt_out,
    fun h => ⟨c.nine_lt_two_pow_w h, fun _ hv => hv.trans_le (c.ten_pow_lanes_le h)⟩⟩

/-- L digits, of four bits or more each, make a number of at most N bits. -/
theorem Config.ten_pow_lanes_le_two_pow_n (c : Config) (h : 4 ≤ c.w) : 10 ^ c.lanes ≤ 2 ^ c.n :=
  calc 10 ^ c.lanes ≤ (2 ^ 4) ^ c.lanes := Nat.pow_le_pow_left (by norm_num) _
    _ = 2 ^ (c.lanes * 4) := by rw [← pow_mul, Nat.mul_comm]
    _ ≤ 2 ^ (c.lanes * c.w) := Nat.pow_le_pow_right two_pos (Nat.mul_le_mul_left _ h)
    _ = 2 ^ c.n := by rw [c.lanes_mul_w]

/-- Settles O3: S3 of R8 at OUT = N is the bound on L digits of at least four bits. -/
theorem decoderFitsOutEqualN : Obligations.DecoderFitsOutEqualN := by
  intro c hw
  obtain ⟨hn, -, hpos, hdvd, -⟩ := c.legal_cases
  have hbound : 10 ^ (c.n / c.w) ≤ 2 ^ c.n := c.ten_pow_lanes_le_two_pow_n hw
  simp [Params.legal, hn, hpos, Nat.mod_eq_zero_of_dvd hdvd, hw, hbound]

namespace Machine

/-! ### The logarithms (R52, R53) -/

/-- The highest set bit of a positive number brackets it between two powers of two. -/
theorem highestBit_bracket {x k : Nat} (hpos : 1 ≤ x) (hx : x < 2 ^ k) :
    2 ^ highestBit x k ≤ x ∧ x < 2 ^ (highestBit x k + 1) := by
  induction k with
  | zero => rw [pow_zero] at hx; omega
  | succ k ih =>
    cases hbit : x.testBit k with
    | true => simpa [highestBit, hbit, hx] using Nat.ge_two_pow_of_testBit hbit
    | false =>
      have hlt : x < 2 ^ k := by
        by_contra hle
        simp [Nat.testBit_of_two_pow_le_and_two_pow_add_one_gt (Nat.not_lt.1 hle) hx] at hbit
      simpa [highestBit, hbit] using ih hlt

/-- R52. -/
theorem floorLog2_bracket {x : Nat} (h : 1 ≤ x) : 2 ^ floorLog2 x h ≤ x ∧ x < 2 ^ (floorLog2 x h + 1) :=
  highestBit_bracket h Nat.lt_two_pow_self

/-- The test of R53 finds the powers of two. -/
theorem exactPowerOfTwo_iff {x : Nat} (h : 1 ≤ x) : exactPowerOfTwo x = true ↔ ∃ e, x = 2 ^ e := by
  rw [exactPowerOfTwo, beq_iff_eq, Nat.and_sub_one_eq_zero_iff_isPowerOfTwo (by omega), Nat.isPowerOfTwo]

theorem ceilLog2_of_power {x : Nat} (h : 1 ≤ x) (hx : ∃ e, x = 2 ^ e) : ceilLog2 x h = floorLog2 x h :=
  if_pos ((exactPowerOfTwo_iff h).2 hx)

theorem ceilLog2_of_not_power {x : Nat} (h : 1 ≤ x) (hx : ¬ ∃ e, x = 2 ^ e) : ceilLog2 x h = floorLog2 x h + 1 :=
  if_neg (mt (exactPowerOfTwo_iff h).1 hx)

theorem two_pow_floorLog2_of_power {x : Nat} (h : 1 ≤ x) (hx : ∃ e, x = 2 ^ e) : 2 ^ floorLog2 x h = x := by
  obtain ⟨hle, hlt⟩ := floorLog2_bracket h
  obtain ⟨e, he⟩ := hx
  have h1 : floorLog2 x h ≤ e := (Nat.pow_le_pow_iff_right one_lt_two).1 (hle.trans_eq he)
  have h2 : e < floorLog2 x h + 1 := (Nat.pow_lt_pow_iff_right one_lt_two).1 (he.symm.trans_lt hlt)
  rw [show floorLog2 x h = e by omega, ← he]

/-- ceilLog2(x) is the least e with x ≤ 2^e: a power of two is its own floor, and any other number lies strictly
above its floor. -/
theorem ceilLog2_least {x : Nat} (h : 1 ≤ x) : x ≤ 2 ^ ceilLog2 x h ∧ ∀ e, x ≤ 2 ^ e → ceilLog2 x h ≤ e := by
  obtain ⟨hle, hlt⟩ := floorLog2_bracket h
  by_cases hx : ∃ e, x = 2 ^ e
  · rw [ceilLog2_of_power h hx]
    exact ⟨(two_pow_floorLog2_of_power h hx).ge, fun e he => (Nat.pow_le_pow_iff_right one_lt_two).1 (hle.trans he)⟩
  · rw [ceilLog2_of_not_power h hx]
    have hstrict : 2 ^ floorLog2 x h < x := lt_of_le_of_ne hle fun heq => hx ⟨_, heq.symm⟩
    exact ⟨hlt.le, fun e he => (Nat.pow_lt_pow_iff_right one_lt_two).1 (hstrict.trans_le he)⟩

/-- R55 with R5: L is a power of two, so the passes double it exactly. -/
theorem two_pow_passCount (c : Config) : 2 ^ passCount c = c.lanes := by
  obtain ⟨-, k, -, hk, -⟩ := c.w_lanes_two_pow
  rw [passCount, ceilLog2_of_power _ ⟨k, hk⟩, two_pow_floorLog2_of_power _ ⟨k, hk⟩]

/-- Settles O38: R52 from the highest set bit, R53 from its test, and what follows from the two. -/
theorem logHelpersBracketTheirArgument : Obligations.LogHelpersBracketTheirArgument :=
  ⟨fun _ h => floorLog2_bracket h, fun _ h => ⟨ceilLog2_of_power h, ceilLog2_of_not_power h⟩,
    fun _ h => ceilLog2_least h, two_pow_passCount⟩

/-! ### Lanes of twice the width -/

/-- Settles O55: 2w bits from position 2wi on are w bits and the w bits above them. -/
theorem doubleWidthLanesPairUp : Obligations.DoubleWidthLanesPairUp := by
  intro w i x
  have hodd : 2 ^ ((2 * i + 1) * w) = 2 ^ (2 * i * w) * 2 ^ w := by rw [← pow_add]; congr 1; ring
  rw [laneOf, laneOf, laneOf, show i * (2 * w) = 2 * i * w by ring, hodd, ← Nat.div_div_eq_div_mul, two_mul w, pow_add,
    Nat.mod_mul]
  ring

end Machine

end Sys2Proof
end

section
/-! Exec by opcode (30_encoding.md R40, R41): the rule of each operation, applied to the port's operands. -/

namespace Sys2Proof.Machine

open Sys2Proof

/-! ### What the lane operations read of their operands -/

theorem broadcast_lowBits (c : Config) (v : Word) : broadcast c (lowBits c.w v) = broadcast c v := by
  simp only [broadcast, lowBits_toNat c.w_le, Nat.mod_mod]

/-- Packing reads its function at the block's lanes alone. -/
theorem pack_congr {c : Config} {f g : Nat → Nat} (h : ∀ i < c.lanes, f i = g i) : pack c f = pack c g := by
  rw [pack, pack, packNat_congr h]

theorem addLanes_lowBits (c : Config) (a b : Word) : addLanes c (lowBits c.n a) (lowBits c.n b) = addLanes c a b :=
  pack_congr fun i hi => by rw [lane_lowBits c a hi, lane_lowBits c b hi]

theorem subLanes_lowBits (c : Config) (a b : Word) : subLanes c (lowBits c.n a) (lowBits c.n b) = subLanes c a b :=
  pack_congr fun i hi => by rw [lane_lowBits c a hi, lane_lowBits c b hi]

theorem hitMask_lowBits (c : Config) (p : Nat → Nat → Bool) (a b : Word) :
    hitMask c p (lowBits c.n a) (lowBits c.n b) = hitMask c p a b :=
  pack_congr fun i hi => by rw [lane_lowBits c a hi, lane_lowBits c b hi]

/-- Two values with the same lanes hit are masked to the same value (R67). -/
theorem maskedHits_congr {c : Config} {x y : Word} (h : ∀ i < c.lanes, hit c x i = hit c y i) :
    maskedHits c x = maskedHits c y := by
  apply BitVec.eq_of_getLsbD_eq
  intro k _
  rw [← BitVec.testBit_toNat, ← BitVec.testBit_toNat, Bool.eq_iff_iff, testBit_maskedHits, testBit_maskedHits]
  constructor
  · rintro ⟨i, hi, htop, hhit⟩
    exact ⟨i, hi, htop, (h i hi).symm.trans hhit⟩
  · rintro ⟨i, hi, htop, hhit⟩
    exact ⟨i, hi, htop, (h i hi).trans hhit⟩

theorem maskedHits_lowBits (c : Config) (x : Word) : maskedHits c (lowBits c.n x) = maskedHits c x :=
  maskedHits_congr fun i hi => by rw [hit_eq_lane_testBit, lane_lowBits c x hi, ← hit_eq_lane_testBit]

/-- FFS sees of its operand only what masking keeps (R67). -/
theorem respFfs_congr {c : Config} {x y : Word} (h : maskedHits c x = maskedHits c y) :
    respFfs c x = respFfs c y := by
  have hnone : noLaneHit c x = noLaneHit c y := congrArg (· == 0) h
  have hlane : firstHitLane c x = firstHitLane c y := by rw [firstHitLane, firstHitLane, h]
  rw [respFfs, respFfs, hnone, hlane]

/-- FLS sees of its operand only what masking keeps (R67). -/
theorem respFls_congr {c : Config} {x y : Word} (h : maskedHits c x = maskedHits c y) :
    respFls c x = respFls c y := by
  have hnone : noLaneHit c x = noLaneHit c y := congrArg (· == 0) h
  have hlane : lastHitLane c x = lastHitLane c y := by rw [lastHitLane, lastHitLane, h]
  rw [respFls, respFls, hnone, hlane]

/-- POPC sees of its operand only what masking keeps (R67). -/
theorem respPopc_congr {c : Config} {x y : Word} (h : maskedHits c x = maskedHits c y) :
    respPopc c x = respPopc c y := by
  rw [respPopc, respPopc, hitCount, hitCount, h]

theorem decimalValue_lowBits (c : Config) (a : Word) : decimalValue c (lowBits c.n a) = decimalValue c a := by
  rw [decimalValue, decimalValue, digitSum_eq_sum, digitSum_eq_sum]
  exact congrArg List.sum (List.map_congr_left fun k hk => by rw [lane_lowBits c a (List.mem_range.1 hk)])

theorem inDomain_lowBits (c : Config) (a : Word) : inDomain c (lowBits c.n a) = inDomain c a := by
  rw [Bool.eq_iff_iff, inDomain_iff, inDomain_iff]
  exact forall₂_congr fun k hk => by rw [lane_lowBits c a hk]

/-! ### Exec of each opcode -/

@[simp] theorem laneResponse_r (r : Word) : (laneResponse r).r = r := rfl

theorem portExec_bcast (c : Config) (a b : Word) : portExec c ⟨0x0#4, a, b⟩ = laneResponse (broadcast c a) :=
  (portExec_of_decode (i := .bcast (lowBits c.w a)) rfl).trans (congrArg laneResponse (broadcast_lowBits c a))

theorem portExec_msbs (c : Config) (a b : Word) : portExec c ⟨0x1#4, a, b⟩ = laneResponse (marker c) := rfl

theorem portExec_add (c : Config) (a b : Word) : portExec c ⟨0x2#4, a, b⟩ = laneResponse (addLanes c a b) :=
  (portExec_of_decode (i := .add (lowBits c.n a) (lowBits c.n b)) rfl).trans
    (congrArg laneResponse (addLanes_lowBits c a b))

theorem portExec_sub (c : Config) (a b : Word) : portExec c ⟨0x3#4, a, b⟩ = laneResponse (subLanes c a b) :=
  (portExec_of_decode (i := .sub (lowBits c.n a) (lowBits c.n b)) rfl).trans
    (congrArg laneResponse (subLanes_lowBits c a b))

theorem portExec_cmpeq (c : Config) (a b : Word) :
    portExec c ⟨0x4#4, a, b⟩ = laneResponse (hitMask c laneEqual a b) :=
  (portExec_of_decode (i := .cmpeq (lowBits c.n a) (lowBits c.n b)) rfl).trans
    (congrArg laneResponse (hitMask_lowBits c laneEqual a b))

theorem portExec_cmplt (c : Config) (a b : Word) :
    portExec c ⟨0x5#4, a, b⟩ = laneResponse (hitMask c laneLess a b) :=
  (portExec_of_decode (i := .cmplt (lowBits c.n a) (lowBits c.n b)) rfl).trans
    (congrArg laneResponse (hitMask_lowBits c laneLess a b))

theorem portExec_ffs (c : Config) (a b : Word) : portExec c ⟨0x6#4, a, b⟩ = respFfs c a :=
  (portExec_of_decode (i := .ffs (lowBits c.n a)) rfl).trans (respFfs_congr (maskedHits_lowBits c a))

theorem portExec_fls (c : Config) (a b : Word) : portExec c ⟨0x7#4, a, b⟩ = respFls c a :=
  (portExec_of_decode (i := .fls (lowBits c.n a)) rfl).trans (respFls_congr (maskedHits_lowBits c a))

theorem portExec_popc (c : Config) (a b : Word) : portExec c ⟨0x8#4, a, b⟩ = respPopc c a :=
  (portExec_of_decode (i := .popc (lowBits c.n a)) rfl).trans (respPopc_congr (maskedHits_lowBits c a))

theorem portExec_decode {c : Config} (h : c.hasDecode = true) (a b : Word) :
    portExec c ⟨0x9#4, a, b⟩ = respDecode c a := by
  rw [portExec_of_decode (i := .decode (lowBits c.n a)) ((decode_ok_iff c _ _).2 ⟨.DECODE, selectOp_decode h, rfl⟩)]
  simp only [respond, respDecode, inDomain_lowBits, decimalValue_lowBits, lowBits_lowBits c.n_le]

/-! ### Lane-wise laws -/

/-- Settles O31: lane i of a sum or difference is a function of the operands' lanes i. -/
theorem lanesDoNotDisturbNeighbours : Obligations.LanesDoNotDisturbNeighbours := by
  intro c op a b a' b' i hop hi ha hb
  obtain rfl | rfl := hop
  · simp only [portExec_add, laneResponse_r, lane_addLanes c _ _ hi, ha, hb]
  · simp only [portExec_sub, laneResponse_r, lane_subLanes c _ _ hi, ha, hb]

/-- Modulo m, adding y and then m − y comes back. -/
theorem add_mod_sub_mod {m x y : Nat} (hx : x < m) (hy : y < m) : ((x + y) % m + m - y) % m = x := by
  obtain hlt | hle := Nat.lt_or_ge (x + y) m
  · rw [Nat.mod_eq_of_lt hlt, show x + y + m - y = x + m by omega, Nat.add_mod_right, Nat.mod_eq_of_lt hx]
  · rw [Nat.mod_eq_sub_mod hle, Nat.mod_eq_of_lt (show x + y - m < m by omega),
      show x + y - m + m - y = x by omega, Nat.mod_eq_of_lt hx]

/-- Settles O49: in every lane the difference takes off what the sum added, modulo 2^W. -/
theorem subUndoesAdd : Obligations.SubUndoesAdd := by
  intro c a b
  rw [portExec_sub, portExec_add]
  refine eq_of_lanes_eq c (subLanes_fits c _ b) (lowBits_fits c.n_le a) fun i hi => ?_
  simp only [laneResponse_r, lane_subLanes_eq_mod c _ b hi, lane_addLanes c a b hi, lane_lowBits c a hi, laneSum,
    add_mod_sub_mod (lane_lt c a i) (lane_lt c b i)]

/-- BCAST of 2^(W−1) puts the designated bit in every lane (R50). -/
theorem broadcast_topBit (c : Config) : broadcast c (BitVec.ofNat 128 (2 ^ (c.w - 1))) = marker c := by
  have hlt : 2 ^ (c.w - 1) < 2 ^ c.w := Nat.pow_lt_pow_right one_lt_two (Nat.sub_one_lt_of_lt c.w_pos)
  rw [broadcast, toNat_ofNat_of_lt_le hlt c.w_le, Nat.mod_eq_of_lt hlt, marker]

/-- Settles O50: both answer the marker mask. -/
theorem msbsIsBroadcastOfTopBit : Obligations.MsbsIsBroadcastOfTopBit := by
  intro c a b z
  rw [portExec_msbs, portExec_bcast, broadcast_topBit]

/-! ### BCAST by doubling (R49) -/

/-- A packing taken apart after its first m lanes. -/
theorem packNat_add (w : Nat) (f : Nat → Nat) (m k : Nat) :
    packNat w f (m + k) = packNat w (fun i => f (m + i)) k * 2 ^ (m * w) + packNat w f m := by
  induction k with
  | zero => simp [packNat]
  | succ k ih =>
    rw [← Nat.add_assoc, packNat, ih, packNat, Nat.add_mul m k, pow_add]
    ring

/-- One doubling step puts a copy of the pattern above it: the two have no bit in common (R49). -/
theorem doubling_step {n w m : Nat} {x : BitVec n} {v : Nat} (hv : v < 2 ^ w) (hm : (m + m) * w ≤ n)
    (hx : x.toNat = packNat w (fun _ => v) m) :
    (x ||| (x <<< (w * m))).toNat = packNat w (fun _ => v) (m + m) := by
  have hlt : x.toNat < 2 ^ (m * w) := hx ▸ packNat_lt m fun _ _ => hv
  have hshift : x.toNat * 2 ^ (m * w) < 2 ^ n :=
    calc x.toNat * 2 ^ (m * w) < 2 ^ (m * w) * 2 ^ (m * w) := Nat.mul_lt_mul_of_pos_right hlt (by positivity)
      _ = 2 ^ ((m + m) * w) := by rw [← pow_add, Nat.add_mul]
      _ ≤ 2 ^ n := Nat.pow_le_pow_right two_pos hm
  have hor := Nat.shiftLeft_add_eq_or_of_lt hlt x.toNat
  rw [BitVec.toNat_or, BitVec.toNat_shiftLeft, Nat.mul_comm w m, Nat.or_comm]
  rw [Nat.shiftLeft_eq] at hor ⊢
  rw [Nat.mod_eq_of_lt hshift, ← hor, packNat_add, hx]

/-- After k steps the pattern fills the first 2^k lanes, while there are so many. -/
theorem doubling_toNat {c : Config} (v : Word) {k : Nat} (hk : 2 ^ k ≤ c.lanes) :
    (doubling c v k).toNat = packNat c.w (fun _ => v.toNat % 2 ^ c.w) (2 ^ k) := by
  have hv : v.toNat % 2 ^ c.w < 2 ^ c.w := Nat.mod_lt _ (by positivity)
  induction k with
  | zero => simp [doubling, packNat, Nat.mod_eq_of_lt (hv.trans_le (Nat.pow_le_pow_right two_pos c.w_le_n))]
  | succ k ih =>
    have hdouble : 2 ^ (k + 1) = 2 ^ k + 2 ^ k := by rw [pow_succ]; omega
    have hfits : (2 ^ k + 2 ^ k) * c.w ≤ c.n := by
      rw [← hdouble, ← c.lanes_mul_w]
      exact Nat.mul_le_mul_right _ hk
    rw [doubling, hdouble]
    exact doubling_step hv hfits (ih (by omega))

/-- Settles O39: the last step is the one after which the pattern fills all L lanes. -/
theorem doublingReachesBroadcast : Obligations.DoublingReachesBroadcast := by
  intro c a b
  have hdoubling := doubling_toNat a (two_pow_passCount c).le
  rw [two_pow_passCount] at hdoubling
  rw [portExec_bcast, broadcastByDoubling]
  apply BitVec.eq_of_toNat_eq
  rw [BitVec.toNat_setWidth_of_le c.n_le, hdoubling, laneResponse_r, broadcast,
    pack_toNat c fun _ _ => Nat.mod_lt _ (by positivity)]

end Sys2Proof.Machine
end

section
/-! The guarded whole-register computations (42_lane_arith.md, 43_lane_compare.md R57, R59, R61, R62): fixing the
designated bits of both operands stops the carry at every lane's end, so one wide addition adds within the lanes. -/

namespace Sys2Proof.Machine

open Sys2Proof

/-! ### Lanes as W-bit vectors, bit by bit -/

/-- Lane i as a W-bit vector. -/
def laneWord (c : Config) (x : Word) (i : Nat) : BitVec c.w := BitVec.ofNat c.w (lane c x i)

@[simp] theorem laneWord_toNat (c : Config) (x : Word) (i : Nat) : (laneWord c x i).toNat = lane c x i := by
  rw [laneWord, BitVec.toNat_ofNat, Nat.mod_eq_of_lt (lane_lt c x i)]

/-- Bit j of lane i is bit i·W + j of the value. -/
theorem lane_testBit (c : Config) (x : Word) (i : Nat) {j : Nat} (hj : j < c.w) :
    (lane c x i).testBit j = x.getLsbD (i * c.w + j) := by
  rw [lane, laneOf, Nat.testBit_mod_two_pow, Nat.testBit_div_two_pow, decide_eq_true hj, Bool.true_and, Nat.add_comm,
    BitVec.testBit_toNat]

theorem laneWord_getLsbD (c : Config) (x : Word) (i : Nat) {j : Nat} (hj : j < c.w) :
    (laneWord c x i).getLsbD j = x.getLsbD (i * c.w + j) := by
  rw [← BitVec.testBit_toNat, laneWord_toNat, lane_testBit c x i hj]

theorem laneWord_not (c : Config) (x : Word) {i : Nat} (hi : i < c.lanes) :
    laneWord c (~~~x) i = ~~~(laneWord c x i) := by
  apply BitVec.eq_of_getLsbD_eq
  intro j hj
  have hcarrier : i * c.w + j < 128 := by have := c.lane_end_le hi; have := c.n_le; omega
  rw [laneWord_getLsbD c _ i hj, BitVec.getLsbD_not, BitVec.getLsbD_not, laneWord_getLsbD c _ i hj,
    decide_eq_true hj, decide_eq_true hcarrier]

theorem laneWord_xor (c : Config) (x y : Word) (i : Nat) :
    laneWord c (x ^^^ y) i = laneWord c x i ^^^ laneWord c y i := by
  apply BitVec.eq_of_getLsbD_eq
  intro j hj
  simp only [BitVec.getLsbD_xor, laneWord_getLsbD c _ i hj]

theorem laneSum_eq_toNat (c : Config) (a b : Word) (i : Nat) :
    laneSum c.w (lane c a i) (lane c b i) = (laneWord c a i + laneWord c b i).toNat := by
  rw [BitVec.toNat_add, laneWord_toNat, laneWord_toNat, laneSum]

theorem laneDifference_eq_toNat (c : Config) (a b : Word) (i : Nat) :
    laneDifference c.w (lane c a i) (lane c b i) = (laneWord c a i - laneWord c b i).toNat := by
  have hb := lane_lt c b i
  rw [laneDifference_eq _ _ _ hb, BitVec.toNat_sub, laneWord_toNat, laneWord_toNat]
  congr 1
  omega

/-- Within lane i the marker has its top bit alone (R50). -/
theorem marker_getLsbD (c : Config) {i j : Nat} (hi : i < c.lanes) (hj : j < c.w) :
    (marker c).getLsbD (i * c.w + j) = decide (c.w - 1 = j) := by
  rw [← lane_testBit c _ i hj, lane_marker c hi, Nat.testBit_two_pow]

/-- A number of N bits is an N-bit value of the carrier if they agree bit by bit in every lane. -/
theorem setWidth_eq_of_lane_bits {c : Config} {x : BitVec c.n} {y : Word} (hy : fits c.n y = true)
    (h : ∀ i < c.lanes, ∀ j < c.w, x.getLsbD (i * c.w + j) = (lane c y i).testBit j) : x.setWidth 128 = y := by
  apply BitVec.eq_of_getLsbD_eq
  intro k hk
  rw [← BitVec.testBit_toNat (x := y), testBit_eq_lane_testBit c hy, BitVec.getLsbD_setWidth, decide_eq_true hk,
    Bool.true_and]
  by_cases hkn : k < c.n
  · rw [← h _ (div_w_lt_lanes c hkn) _ (Nat.mod_lt k c.w_pos), Nat.div_add_mod', decide_eq_true hkn, Bool.true_and]
  · simp [hkn, BitVec.getLsbD_of_ge x k (by omega)]

/-- The carrier's bits within a lane are the N-bit register's. -/
theorem setWidth_getLsbD_lane (c : Config) (x : Word) {i j : Nat} (hi : i < c.lanes) (hj : j < c.w) :
    (x.setWidth c.n).getLsbD (i * c.w + j) = x.getLsbD (i * c.w + j) := by
  have hlt : i * c.w + j < c.n := by have := c.lane_end_le hi; omega
  rw [BitVec.getLsbD_setWidth, decide_eq_true hlt, Bool.true_and]

/-! ### The carry within a lane -/

/-- From a position on, the carry depends on the bits from there on, and on the carry into it. -/
theorem carry_add_of_agree {n w p k : Nat} {x y : BitVec n} {u v : BitVec w} {cin d : Bool}
    (hstart : BitVec.carry p x y cin = d) (hx : ∀ t < k, x.getLsbD (p + t) = u.getLsbD t)
    (hy : ∀ t < k, y.getLsbD (p + t) = v.getLsbD t) {j : Nat} (hj : j ≤ k) :
    BitVec.carry (p + j) x y cin = BitVec.carry j u v d := by
  induction j with
  | zero => rw [Nat.add_zero, hstart, BitVec.carry_zero]
  | succ j ih =>
    rw [← Nat.add_assoc, BitVec.carry_succ, BitVec.carry_succ, ih (by omega), hx j (by omega), hy j (by omega)]

/-- `x` is `a` with the designated bit of every lane made `d`. -/
structure Guarded (c : Config) (d : Bool) (x : BitVec c.n) (a : Word) : Prop where
  top : ∀ i < c.lanes, x.getLsbD (i * c.w + (c.w - 1)) = d
  below : ∀ i < c.lanes, ∀ t < c.w - 1, x.getLsbD (i * c.w + t) = a.getLsbD (i * c.w + t)

/-- Clearing the designated bits (R57). -/
theorem guarded_and_not_marker (c : Config) (a : Word) :
    Guarded c false (a.setWidth c.n &&& ~~~((marker c).setWidth c.n)) a := by
  have hw := c.w_pos
  constructor
  · intro i hi
    have hj : c.w - 1 < c.w := by omega
    simp [setWidth_getLsbD_lane c _ hi hj, marker_getLsbD c hi hj]
  · intro i hi t ht
    have hj : t < c.w := by omega
    have hlt : i * c.w + t < c.n := by have := c.lane_end_le hi; omega
    simp [marker_getLsbD c hi hj, hlt, ht.ne']

/-- Setting the designated bits (R59). -/
theorem guarded_or_marker (c : Config) (a : Word) :
    Guarded c true (a.setWidth c.n ||| (marker c).setWidth c.n) a := by
  have hw := c.w_pos
  constructor
  · intro i hi
    have hj : c.w - 1 < c.w := by omega
    simp [setWidth_getLsbD_lane c _ hi hj, marker_getLsbD c hi hj]
  · intro i hi t ht
    have hj : t < c.w := by omega
    simp [setWidth_getLsbD_lane c _ hi hj, marker_getLsbD c hi hj, ht.ne']

/-- What enters every lane of a guarded addition is the guard: two designated bits d carry d, whatever enters them. -/
theorem carry_lane_start {c : Config} {d : Bool} {x y : BitVec c.n} {a b : Word} (hx : Guarded c d x a)
    (hy : Guarded c d y b) {i : Nat} (hi : i ≤ c.lanes) : BitVec.carry (i * c.w) x y d = d := by
  have hw := c.w_pos
  cases i with
  | zero => rw [Nat.zero_mul, BitVec.carry_zero]
  | succ i =>
    rw [show (i + 1) * c.w = i * c.w + (c.w - 1) + 1 by rw [Nat.add_mul]; omega, BitVec.carry_succ,
      hx.top i hi, hy.top i hi]
    cases d <;> simp [Bool.atLeastTwo]

/-- Within a lane, a guarded addition carries as the lanes do. -/
theorem carry_guarded {c : Config} {d : Bool} {x y : BitVec c.n} {a b : Word} (hx : Guarded c d x a)
    (hy : Guarded c d y b) {i j : Nat} (hi : i < c.lanes) (hj : j < c.w) :
    BitVec.carry (i * c.w + j) x y d = BitVec.carry j (laneWord c a i) (laneWord c b i) d := by
  refine carry_add_of_agree (k := c.w - 1) (carry_lane_start hx hy hi.le) (fun t ht => ?_) (fun t ht => ?_) (by omega)
  · rw [hx.below i hi t ht, laneWord_getLsbD c a i (by omega)]
  · rw [hy.below i hi t ht, laneWord_getLsbD c b i (by omega)]

/-! ### R57 and R59 -/

theorem clear_guard_bit : ∀ m a b carry : Bool,
    ((a && !m) ^^ ((b && !m) ^^ carry) ^^ ((a ^^ b) && m)) = (a ^^ (b ^^ carry)) := by decide

theorem set_guard_bit : ∀ m a b carry : Bool,
    ((a || m) ^^ ((b || m) ^^ carry) ^^ ((a ^^ b) && m)) = (a ^^ (b ^^ carry)) := by decide

/-- R57 bit by bit: an addition whose carry is that of the guarded operands. -/
theorem swarAdd_getLsbD {n k : Nat} (m a b : BitVec n) (hk : k < n) :
    (swarAdd m a b).getLsbD k =
      (a.getLsbD k ^^ (b.getLsbD k ^^ BitVec.carry k (a &&& ~~~m) (b &&& ~~~m) false)) := by
  rw [← clear_guard_bit (m.getLsbD k), swarAdd, BitVec.getLsbD_xor, BitVec.getLsbD_add hk]
  simp only [BitVec.getLsbD_and, BitVec.getLsbD_xor, BitVec.getLsbD_not, hk, decide_true, Bool.true_and]

/-- A difference is the sum with the complement and a carry into bit 0. -/
theorem getLsbD_sub_eq_carry {n k : Nat} (x y : BitVec n) (hk : k < n) :
    (x - y).getLsbD k = (x.getLsbD k ^^ ((~~~y).getLsbD k ^^ BitVec.carry k x (~~~y) true)) := by
  rw [← BitVec.getLsbD_add_add_bool hk, show BitVec.ofBool true = 1#1 from rfl, BitVec.sub_eq_add_neg,
    BitVec.neg_eq_not_add, ← BitVec.add_assoc, BitVec.setWidth_ofNat_one_eq_ofNat_one_of_lt (by omega)]

/-- R59 bit by bit: a subtraction whose carry is that of the guarded operands. -/
theorem swarSub_getLsbD {n k : Nat} (m a b : BitVec n) (hk : k < n) :
    (swarSub m a b).getLsbD k =
      (a.getLsbD k ^^ ((~~~b).getLsbD k ^^ BitVec.carry k (a ||| m) (~~~b ||| m) true)) := by
  have hcomplement : ~~~(b &&& ~~~m) = ~~~b ||| m := by rw [BitVec.not_and, BitVec.not_not]
  rw [← set_guard_bit (m.getLsbD k), swarSub, BitVec.getLsbD_xor, getLsbD_sub_eq_carry _ _ hk, hcomplement,
    BitVec.getLsbD_and, BitVec.getLsbD_xor, BitVec.getLsbD_or, BitVec.getLsbD_or]

/-- Settles O40: bit by bit both are the operands' bits and the carry within the lane. -/
theorem guardedAdditionIsLaneSum : Obligations.GuardedAdditionIsLaneSum := by
  intro c a b
  rw [portExec_add, laneResponse_r]
  refine setWidth_eq_of_lane_bits (addLanes_fits c a b) fun i hi j hj => ?_
  have hlt : i * c.w + j < c.n := by have := c.lane_end_le hi; omega
  rw [swarAdd_getLsbD _ _ _ hlt, carry_guarded (guarded_and_not_marker c a) (guarded_and_not_marker c b) hi hj,
    setWidth_getLsbD_lane c a hi hj, setWidth_getLsbD_lane c b hi hj, lane_addLanes c a b hi, laneSum_eq_toNat,
    BitVec.testBit_toNat, BitVec.getLsbD_add hj, laneWord_getLsbD c a i hj, laneWord_getLsbD c b i hj]

/-- Settles O41: the subtrahend's complement is guarded in its place, with a carry into every lane. -/
theorem guardedSubtractionIsLaneDifference : Obligations.GuardedSubtractionIsLaneDifference := by
  intro c a b
  rw [portExec_sub, laneResponse_r]
  refine setWidth_eq_of_lane_bits (subLanes_fits c a b) fun i hi j hj => ?_
  have hlt : i * c.w + j < c.n := by have := c.lane_end_le hi; omega
  rw [swarSub_getLsbD _ _ _ hlt, ← BitVec.setWidth_not c.n_le,
    carry_guarded (guarded_or_marker c a) (guarded_or_marker c (~~~b)) hi hj,
    setWidth_getLsbD_lane c a hi hj, setWidth_getLsbD_lane c (~~~b) hi hj, lane_subLanes c a b hi,
    laneDifference_eq_toNat, BitVec.testBit_toNat, getLsbD_sub_eq_carry _ _ hj, ← laneWord_not c b hi,
    laneWord_getLsbD c a i hj, laneWord_getLsbD c (~~~b) i hj]

/-! ### R61 and R62 -/

/-- What is masked with the marker is a hit mask if it has the predicate in the designated bits (R60). -/
theorem setWidth_and_marker_eq_hitMask {c : Config} {x : BitVec c.n} {p : Nat → Nat → Bool} {a b : Word}
    (h : ∀ i < c.lanes, x.getLsbD (i * c.w + (c.w - 1)) = p (lane c a i) (lane c b i)) :
    (x &&& (marker c).setWidth c.n).setWidth 128 = hitMask c p a b := by
  refine setWidth_eq_of_lane_bits (hitMask_fits c p a b) fun i hi j hj => ?_
  rw [BitVec.getLsbD_and, setWidth_getLsbD_lane c _ hi hj, marker_getLsbD c hi hj, lane_hitMask c p a b hi, hitLane,
    ← h i hi]
  by_cases htop : c.w - 1 = j
  · cases hx : x.getLsbD (i * c.w + j) <;> simp [htop, hx]
  · cases hx : x.getLsbD (i * c.w + (c.w - 1)) <;> simp [htop]

theorem two_pow_w (c : Config) : 2 ^ c.w = 2 * 2 ^ (c.w - 1) := by
  rw [← pow_succ', Nat.sub_add_cancel c.w_pos]

/-- The designated bit of a lane tells whether its value is in the upper half. -/
theorem testBit_top {c : Config} {z : Nat} (hz : z < 2 ^ c.w) : z.testBit (c.w - 1) = decide (2 ^ (c.w - 1) ≤ z) := by
  rw [Bool.eq_iff_iff, decide_eq_true_eq]
  refine ⟨Nat.ge_two_pow_of_testBit, fun h => Nat.testBit_of_two_pow_le_and_two_pow_add_one_gt h ?_⟩
  rwa [Nat.sub_add_cancel c.w_pos]

/-- The complement of the marker is all ones with the designated bits cleared. -/
theorem guarded_not_marker (c : Config) :
    Guarded c false (~~~((marker c).setWidth c.n)) (BitVec.allOnes 128) := by
  have hones : (BitVec.allOnes 128).setWidth c.n = BitVec.allOnes c.n := by
    apply BitVec.eq_of_getLsbD_eq
    intro k hk
    simp only [BitVec.getLsbD_setWidth, BitVec.getLsbD_allOnes, hk, hk.trans_le c.n_le, decide_true, Bool.true_and]
  have h := guarded_and_not_marker c (BitVec.allOnes 128)
  rwa [hones, BitVec.allOnes_and] at h

theorem laneWord_allOnes (c : Config) {i : Nat} (hi : i < c.lanes) :
    laneWord c (BitVec.allOnes 128) i = BitVec.allOnes c.w := by
  rw [← BitVec.not_zero, laneWord_not c _ hi, ← BitVec.not_zero]
  simp [laneWord, lane, laneOf]

/-- Adding ones below the designated bit carries into it exactly where there is a bit below it. -/
theorem carry_ones_below_top (c : Config) (x : BitVec c.w) :
    BitVec.carry (c.w - 1) x (BitVec.allOnes c.w) false = decide (x.toNat % 2 ^ (c.w - 1) ≠ 0) := by
  have hpos : 0 < 2 ^ (c.w - 1) := by positivity
  have hones : (2 ^ c.w - 1) % 2 ^ (c.w - 1) = 2 ^ (c.w - 1) - 1 := by
    rw [two_pow_w, two_mul, Nat.add_sub_assoc hpos, Nat.add_mod_left, Nat.mod_eq_of_lt (by omega)]
  rw [BitVec.carry, BitVec.toNat_allOnes, hones, decide_eq_decide, Bool.toNat_false]
  omega

/-- R61's sum has, in the designated bit of lane i, whether lane i of x has a bit below it. -/
theorem add_ones_getLsbD_top (c : Config) (x : Word) {i : Nat} (hi : i < c.lanes) :
    ((x.setWidth c.n &&& ~~~((marker c).setWidth c.n)) + ~~~((marker c).setWidth c.n)).getLsbD
      (i * c.w + (c.w - 1)) = decide (lane c x i % 2 ^ (c.w - 1) ≠ 0) := by
  have hj : c.w - 1 < c.w := Nat.sub_one_lt_of_lt c.w_pos
  have hlt : i * c.w + (c.w - 1) < c.n := by have := c.lane_end_le hi; omega
  have hx := guarded_and_not_marker c x
  have hones := guarded_not_marker c
  rw [BitVec.getLsbD_add hlt, hx.top i hi, hones.top i hi, carry_guarded hx hones hi hj, laneWord_allOnes c hi,
    carry_ones_below_top, laneWord_toNat, Bool.false_xor, Bool.false_xor]

/-- A lane is zero where it has neither a bit below the designated one nor that one. -/
theorem lane_eq_zero_iff (c : Config) (x : Word) (i : Nat) :
    lane c x i = 0 ↔ lane c x i % 2 ^ (c.w - 1) = 0 ∧ (lane c x i).testBit (c.w - 1) = false := by
  rw [testBit_top (lane_lt c x i), decide_eq_false_iff_not, Nat.not_le]
  constructor
  · intro h
    rw [h]
    exact ⟨Nat.zero_mod _, by positivity⟩
  · rintro ⟨hmod, hlow⟩
    rwa [Nat.mod_eq_of_lt hlow] at hmod

/-- Lanes are equal where their exclusive-or is zero. -/
theorem lane_xor_eq_zero_iff (c : Config) (a b : Word) (i : Nat) :
    lane c (a ^^^ b) i = 0 ↔ lane c a i = lane c b i := by
  rw [← laneWord_toNat, laneWord_xor, BitVec.toNat_xor, laneWord_toNat, laneWord_toNat, Nat.xor_eq_zero_iff]

/-- Settles O42: in a designated bit, the sum tells of the bits of A ^ B below it, and A ^ B of the bit itself. -/
theorem xorEqualityIsHitMask : Obligations.XorEqualityIsHitMask := by
  intro c a b
  rw [portExec_cmpeq, laneResponse_r]
  refine setWidth_and_marker_eq_hitMask fun i hi => ?_
  have hj : c.w - 1 < c.w := Nat.sub_one_lt_of_lt c.w_pos
  have hlt : i * c.w + (c.w - 1) < c.n := by have := c.lane_end_le hi; omega
  rw [← BitVec.setWidth_xor, BitVec.getLsbD_not, BitVec.getLsbD_or, add_ones_getLsbD_top c (a ^^^ b) hi,
    setWidth_getLsbD_lane c _ hi hj, ← lane_testBit c _ i hj, laneEqual, Bool.eq_iff_iff, decide_eq_true_eq,
    ← lane_xor_eq_zero_iff, lane_eq_zero_iff]
  simp [hlt]

/-- R62's test of one lane: the lesser of two values is in the lower half where the other is not, and otherwise their
difference modulo 2^W has wrapped round into the upper half. -/
theorem laneLess_eq_borrow {c : Config} {x y : Nat} (hx : x < 2 ^ c.w) (hy : y < 2 ^ c.w) :
    laneLess x y = (!x.testBit (c.w - 1) && y.testBit (c.w - 1) ||
      !(x.testBit (c.w - 1) ^^ y.testBit (c.w - 1)) && (laneDifference c.w x y).testBit (c.w - 1)) := by
  rw [testBit_top hx, testBit_top hy, testBit_top (laneDifference_lt hy), laneDifference_eq _ _ _ hy, laneLess]
  rw [two_pow_w] at hx hy ⊢
  generalize 2 ^ (c.w - 1) = half at hx hy ⊢
  rw [Bool.eq_iff_iff]
  simp only [Bool.or_eq_true, Bool.and_eq_true, Bool.not_eq_true', bne_eq_false_iff_eq, decide_eq_decide,
    decide_eq_true_eq, decide_eq_false_iff_not]
  obtain hlt | hle := Nat.lt_or_ge x y
  · rw [Nat.mod_eq_of_lt (show x + 2 * half - y < 2 * half by omega)]
    omega
  · rw [show x + 2 * half - y = x - y + 2 * half by omega, Nat.add_mod_right, Nat.mod_eq_of_lt (by omega)]
    omega

/-- Settles O43: the designated bits of A, B and D are those of the lanes and of the lane-wise difference. -/
theorem borrowLessThanIsHitMask : Obligations.BorrowLessThanIsHitMask := by
  intro c a b
  rw [portExec_cmplt, laneResponse_r]
  refine setWidth_and_marker_eq_hitMask fun i hi => ?_
  have hj : c.w - 1 < c.w := Nat.sub_one_lt_of_lt c.w_pos
  have hlt : i * c.w + (c.w - 1) < c.n := by have := c.lane_end_le hi; omega
  simp only [BitVec.getLsbD_or, BitVec.getLsbD_and, BitVec.getLsbD_not, BitVec.getLsbD_xor, hlt, decide_true,
    Bool.true_and, setWidth_getLsbD_lane c _ hi hj, ← lane_testBit c _ i hj, lane_subLanes c a b hi,
    laneLess_eq_borrow (lane_lt c a i) (lane_lt c b i)]

end Sys2Proof.Machine
end

section
/-! Laws of hit masks (43_lane_compare.md, 44_reduce.md, 45_decode10.md): the lanes hit, the first, the last and their
number. -/

namespace Sys2Proof.Machine

open Sys2Proof

/-! ### The first and the last lane hit, and their number -/

/-- Lane i is the least lane hit (R64). -/
def LeastHit (c : Config) (x : Word) (i : Nat) : Prop :=
  i < c.lanes ∧ hit c x i = true ∧ ∀ j, j < i → hit c x j = false

/-- Lane i is the greatest lane hit (R65). -/
def GreatestHit (c : Config) (x : Word) (i : Nat) : Prop :=
  i < c.lanes ∧ hit c x i = true ∧ ∀ j, i < j → j < c.lanes → hit c x j = false

theorem exists_leastHit {c : Config} {x : Word} (h : ∃ i, i < c.lanes ∧ hit c x i = true) : ∃ i, LeastHit c x i := by
  obtain ⟨hi, hhit⟩ := Nat.find_spec h
  refine ⟨Nat.find h, hi, hhit, fun j hj => ?_⟩
  have hmin := Nat.find_min h hj
  simpa [hj.trans hi] using hmin

theorem exists_greatestHit {c : Config} {x : Word} (h : ∃ i, i < c.lanes ∧ hit c x i = true) :
    ∃ i, GreatestHit c x i := by
  obtain ⟨k, hk, hhit⟩ := h
  obtain ⟨hi, hspec⟩ := Nat.findGreatest_spec (P := fun i => i < c.lanes ∧ hit c x i = true) hk.le ⟨hk, hhit⟩
  refine ⟨_, hi, hspec, fun j hj hlanes => ?_⟩
  have hmax := Nat.findGreatest_is_greatest hj hlanes.le
  simpa [hlanes] using hmax

/-- Either no lane is hit, or there are a least and a greatest lane hit. -/
theorem hit_cases (c : Config) (x : Word) :
    (∀ i, i < c.lanes → hit c x i = false) ∨ ∃ i j, LeastHit c x i ∧ GreatestHit c x j := by
  by_cases h : ∃ i, i < c.lanes ∧ hit c x i = true
  · obtain ⟨i, hi⟩ := exists_leastHit h
    obtain ⟨j, hj⟩ := exists_greatestHit h
    exact .inr ⟨i, j, hi, hj⟩
  · refine .inl fun i hi => ?_
    by_contra hhit
    exact h ⟨i, hi, by simpa using hhit⟩

/-- The lanes hit, in order. -/
def hitLanes (c : Config) (x : Word) : List Nat := (List.range c.lanes).filter fun i => hit c x i

theorem mem_hitLanes {c : Config} {x : Word} {i : Nat} : i ∈ hitLanes c x ↔ i < c.lanes ∧ hit c x i = true := by
  simp [hitLanes]

theorem hitLanes_nodup (c : Config) (x : Word) : (hitLanes c x).Nodup := List.nodup_range.filter _

theorem respPopc_s_eq_length (c : Config) (x : Word) : (respPopc c x).s.toNat = (hitLanes c x).length :=
  (respPopc_s_toNat c x).trans (hitCount_eq_length c x)

theorem hitLanes_eq_nil_iff {c : Config} {x : Word} :
    hitLanes c x = [] ↔ ∀ i, i < c.lanes → hit c x i = false := by
  simp [List.eq_nil_iff_forall_not_mem, mem_hitLanes]

/-- POPC answers 0 where no lane is hit. -/
theorem respPopc_s_eq_zero_iff (c : Config) (x : Word) :
    (respPopc c x).s = 0 ↔ ∀ i, i < c.lanes → hit c x i = false := by
  rw [← BitVec.toNat_inj, show (0 : Word).toNat = 0 from rfl, respPopc_s_eq_length, List.length_eq_zero_iff,
    hitLanes_eq_nil_iff]

/-- POPC answers 1 where the least and the greatest lane hit are one: every lane hit lies between the two. -/
theorem respPopc_s_eq_one_iff {c : Config} {x : Word} {i j : Nat} (hi : LeastHit c x i) (hj : GreatestHit c x j) :
    (respPopc c x).s.toNat = 1 ↔ i = j := by
  obtain ⟨hilanes, hihit, hbelow⟩ := hi
  obtain ⟨hjlanes, hjhit, habove⟩ := hj
  rw [respPopc_s_eq_length, List.length_eq_one_iff]
  constructor
  · rintro ⟨k, hk⟩
    have hik : i ∈ [k] := hk ▸ mem_hitLanes.2 ⟨hilanes, hihit⟩
    have hjk : j ∈ [k] := hk ▸ mem_hitLanes.2 ⟨hjlanes, hjhit⟩
    rw [List.mem_singleton.1 hik, List.mem_singleton.1 hjk]
  · rintro rfl
    have hsame : (hitLanes c x).Perm [i] := by
      refine (List.perm_ext_iff_of_nodup (hitLanes_nodup c x) (List.nodup_singleton i)).2 fun k => ?_
      rw [mem_hitLanes, List.mem_singleton]
      refine ⟨fun ⟨hk, hhit⟩ => ?_, fun hk => hk ▸ ⟨hilanes, hihit⟩⟩
      obtain hlt | heq | hgt := Nat.lt_trichotomy k i
      · simp [hbelow k hlt] at hhit
      · exact heq
      · simp [habove k hgt hk] at hhit
    exact ⟨i, List.perm_singleton.1 hsame⟩

/-- Masking keeps the lanes hit, so it is done once and for all (R67). -/
theorem maskedHits_and_marker (c : Config) (x : Word) : maskedHits c (x &&& marker c) = maskedHits c x := by
  rw [maskedHits, maskedHits, BitVec.and_assoc, BitVec.and_self]

theorem portExec_reduction_and_marker (c : Config) (x b : Word) {op : BitVec 4}
    (hop : op = 0x6#4 ∨ op = 0x7#4 ∨ op = 0x8#4) : portExec c ⟨op, x, b⟩ = portExec c ⟨op, x &&& marker c, b⟩ := by
  have h := (maskedHits_and_marker c x).symm
  obtain rfl | rfl | rfl := hop
  · rw [portExec_ffs, portExec_ffs, respFfs_congr h]
  · rw [portExec_fls, portExec_fls, respFls_congr h]
  · rw [portExec_popc, portExec_popc, respPopc_congr h]

theorem leastHit_le_greatestHit {c : Config} {x : Word} {i j : Nat} (hi : LeastHit c x i) (hj : GreatestHit c x j) :
    i ≤ j := by
  obtain ⟨-, -, hbelow⟩ := hi
  obtain ⟨-, hhit, -⟩ := hj
  by_contra hlt
  simp [hbelow j (by omega)] at hhit

/-- Settles O46: with no lane hit all three say so, and otherwise they answer the first lane hit, the last and the
number of them. -/
theorem reductionsAgree : Obligations.ReductionsAgree := by
  intro c x b
  rw [portExec_ffs, portExec_fls, portExec_popc, respPopc_s_eq_zero_iff]
  obtain hnone | ⟨i, j, hi, hj⟩ := hit_cases c x
  · have hzero : (respPopc c x).s = 0 := (respPopc_s_eq_zero_iff c x).2 hnone
    rw [respFfs_of_none_hit hnone, respFls_of_none_hit hnone, hzero]
    exact ⟨rfl, iff_of_true rfl hnone, nofun, iff_of_false (by decide) (fun h => Bool.noConfusion h.1),
      fun _ => portExec_reduction_and_marker c x b⟩
  · have hone := respPopc_s_eq_one_iff hi hj
    have hle := leastHit_le_greatestHit hi hj
    obtain ⟨hilanes, hihit, hbelow⟩ := hi
    obtain ⟨hjlanes, hjhit, habove⟩ := hj
    obtain ⟨hffs, hfirst⟩ := respFfs_of_least hilanes hihit hbelow
    obtain ⟨hfls, hlast⟩ := respFls_of_greatest hjlanes hjhit habove
    rw [hffs, hfls, hone, ← BitVec.toNat_inj, hfirst, hlast]
    refine ⟨rfl, iff_of_false nofun fun hnone => ?_, fun _ => ⟨hle, by omega⟩, by simp,
      fun _ => portExec_reduction_and_marker c x b⟩
    simp [hnone i hilanes] at hihit

/-! ### Comparison -/

/-- The number of elements below n with a property, as a sum. -/
theorem length_filter_range_eq_sum (p : Nat → Bool) (n : Nat) :
    ((List.range n).filter p).length = ∑ i ∈ Finset.range n, (p i).toNat := by
  induction n with
  | zero => rfl
  | succ n ih =>
    rw [List.range_succ, List.filter_append, List.length_append, ih, Finset.sum_range_succ]
    cases hp : p n <;> simp [hp]

/-- POPC answers the sum of the designated bits (R66). -/
theorem respPopc_s_eq_sum (c : Config) (x : Word) :
    (respPopc c x).s.toNat = ∑ i ∈ Finset.range c.lanes, (hit c x i).toNat :=
  (respPopc_s_eq_length c x).trans (length_filter_range_eq_sum (hit c x) c.lanes)

/-- Of two values exactly one is the lesser, or they are equal. -/
theorem compare_toNat_sum (x y : Nat) :
    (laneLess x y).toNat + (laneLess y x).toNat + (laneEqual x y).toNat = 1 := by
  obtain hlt | heq | hgt := Nat.lt_trichotomy x y
  · simp [laneLess, laneEqual, hlt, hlt.ne, hlt.not_gt]
  · simp [laneLess, laneEqual, heq]
  · simp [laneLess, laneEqual, hgt, hgt.ne', hgt.not_gt]

/-- Settles O47: the three marks of a lane sum to one, so the three counts sum to the number of lanes. -/
theorem comparisonTrichotomy : Obligations.ComparisonTrichotomy := by
  intro c a b z
  simp only [portExec_cmpeq, portExec_cmplt, portExec_popc, laneResponse_r]
  have hlane : ∀ i, i < c.lanes →
      (hit c (hitMask c laneLess a b) i).toNat + (hit c (hitMask c laneLess b a) i).toNat +
        (hit c (hitMask c laneEqual a b) i).toNat = 1 := fun i hi => by
    simp only [hit_hitMask c _ _ _ hi, compare_toNat_sum]
  refine ⟨hlane, ?_⟩
  rw [respPopc_s_eq_sum, respPopc_s_eq_sum, respPopc_s_eq_sum, Nat.add_assoc, Nat.add_comm,
    ← Finset.sum_add_distrib, ← Finset.sum_add_distrib,
    Finset.sum_congr rfl fun i hi => hlane i (Finset.mem_range.1 hi), Finset.sum_const, Finset.card_range,
    smul_eq_mul, Nat.mul_one]

/-- Flipping with the marker turns a designated bit over. -/
theorem hit_xor_marker (c : Config) (x : Word) {i : Nat} (hi : i < c.lanes) :
    hit c (x ^^^ marker c) i = !(hit c x i) := by
  have hmarker : (marker c).toNat.testBit (top c i) = true := (testBit_marker c _).2 ⟨i, hi, rfl⟩
  rw [hit, hit, BitVec.toNat_xor, Nat.testBit_xor, hmarker, Bool.xor_true]

/-- A value below 2h is in the lower or the upper half. -/
theorem half_cases {h z : Nat} (hz : z < 2 * h) : (z < h ∧ z % h = z) ∨ (h ≤ z ∧ z % h = z - h) := by
  obtain hlt | hle := Nat.lt_or_ge z h
  · exact .inl ⟨hlt, Nat.mod_eq_of_lt hlt⟩
  · exact .inr ⟨hle, by rw [Nat.mod_eq_sub_mod hle, Nat.mod_eq_of_lt (by omega)]⟩

/-- Flipping the designated bit moves a lane's value to the same place in the other half. -/
theorem lane_xor_marker (c : Config) (x : Word) {i : Nat} (hi : i < c.lanes) :
    (lane c x i < 2 ^ (c.w - 1) ∧ lane c (x ^^^ marker c) i = lane c x i + 2 ^ (c.w - 1)) ∨
    (2 ^ (c.w - 1) ≤ lane c x i ∧ lane c (x ^^^ marker c) i = lane c x i - 2 ^ (c.w - 1)) := by
  have hlow : lane c (x ^^^ marker c) i % 2 ^ (c.w - 1) = lane c x i % 2 ^ (c.w - 1) := by
    rw [← laneWord_toNat, laneWord_xor, BitVec.toNat_xor, laneWord_toNat, laneWord_toNat, lane_marker c hi,
      Nat.xor_mod_two_pow, Nat.mod_self, Nat.xor_zero]
  have htop := hit_xor_marker c x hi
  rw [hit_eq_lane_testBit, hit_eq_lane_testBit, testBit_top (lane_lt c _ i), testBit_top (lane_lt c _ i),
    Bool.eq_iff_iff, Bool.not_eq_true', decide_eq_false_iff_not, decide_eq_true_eq] at htop
  have hx := half_cases (two_pow_w c ▸ lane_lt c x i)
  have hflipped := half_cases (two_pow_w c ▸ lane_lt c (x ^^^ marker c) i)
  omega

/-- A lane as a two's-complement integer: the upper half stands for the negative values. -/
theorem laneWord_toInt (c : Config) (x : Word) (i : Nat) :
    (laneWord c x i).toInt =
      if lane c x i < 2 ^ (c.w - 1) then (lane c x i : Int) else lane c x i - (2 * 2 ^ (c.w - 1) : Nat) := by
  rw [BitVec.toInt_eq_toNat_cond, laneWord_toNat, two_pow_w]
  exact if_congr (by omega) rfl rfl

/-- Unsigned order of the flipped lanes is signed order of the lanes. -/
theorem lane_xor_marker_lt_iff (c : Config) (a b : Word) {i : Nat} (hi : i < c.lanes) :
    lane c (a ^^^ marker c) i < lane c (b ^^^ marker c) i ↔ (laneWord c a i).toInt < (laneWord c b i).toInt := by
  have ha := lane_lt c a i
  have hb := lane_lt c b i
  rw [two_pow_w] at ha hb
  rw [laneWord_toInt, laneWord_toInt]
  have hfa := lane_xor_marker c a hi
  have hfb := lane_xor_marker c b hi
  split <;> split <;> omega

/-- Settles O48: flipping a mask negates its predicate, and flipping the operands' designated bits turns unsigned order
into signed order. -/
theorem derivedPredicates : Obligations.DerivedPredicates := by
  intro c a b i hi
  simp only [portExec_cmpeq, portExec_cmplt, laneResponse_r, hit_xor_marker c _ hi, hit_hitMask c _ _ _ hi, laneEqual,
    laneLess, Bool.not_eq_true', decide_eq_false_iff_not, decide_eq_true_eq, Nat.not_lt, ne_eq, true_and]
  exact lane_xor_marker_lt_iff c a b hi

/-- POPC answers L where every lane is hit. -/
theorem respPopc_s_eq_lanes_iff (c : Config) (x : Word) :
    (respPopc c x).s.toNat = c.lanes ↔ ∀ i, i < c.lanes → hit c x i = true := by
  have hall := List.length_filter_eq_length_iff (l := List.range c.lanes) (p := fun i => hit c x i)
  rw [List.length_range] at hall
  rw [respPopc_s_eq_length, hitLanes, hall]
  simp only [List.mem_range]

/-- Settles O53: a lane is hit where its value is below 10, which fits a lane of a decoder. -/
theorem digitTestByComparison : Obligations.DigitTestByComparison := by
  intro c d z h
  obtain ⟨-, -, -, -, hdecode⟩ := c.legal_cases
  have hten : (10#128).toNat % 2 ^ c.w = 10 :=
    Nat.mod_eq_of_lt ((by norm_num : 10 < 2 ^ 4).trans_le (Nat.pow_le_pow_right two_pos (hdecode h).1))
  rw [portExec_popc, portExec_cmplt, portExec_bcast, laneResponse_r, laneResponse_r, respPopc_s_eq_lanes_iff]
  refine forall₂_congr fun i hi => ?_
  rw [hit_hitMask_laneLess c d _ hi, lane_broadcast c _ hi, hten, Nat.lt_succ_iff]

end Sys2Proof.Machine
end

section
/-! Base-10 decode (45_decode10.md): the digits of a number (R69, R72) and the reference tree (R74, R75). -/

namespace Sys2Proof.Machine

open Sys2Proof

/-! ### The digits of a number -/

/-- Digits read off a number give the number back, as far as they go. -/
theorem digitSum_of_digits {c : Config} {a : Word} {v k : Nat} (h : ∀ j < k, lane c a j = v / 10 ^ j % 10) :
    digitSum c a k = v % 10 ^ k := by
  induction k with
  | zero => simp [digitSum, Nat.mod_one]
  | succ k ih => rw [digitSum, ih fun j hj => h j (by omega), h k (by omega), Nat.mod_pow_succ, Nat.mul_comm]

/-- The scalar response to a number of OUT bits carries that number. -/
theorem scalarResponse_eq {c : Config} {v : Nat} (hv : v < 2 ^ c.out) :
    scalarResponse c v = { r := 0, s := BitVec.ofNat 128 v, noMatch := false } := by
  have hs : (scalarResponse c v).s = BitVec.ofNat 128 v := by
    apply BitVec.eq_of_toNat_eq
    rw [scalarResponse_s_toNat hv, toNat_ofNat_of_lt_le hv c.out_le]
  rw [← hs]
  rfl

/-- Settles O51: every digit fits a lane and is at most 9, so DECODE sums the digits of V. -/
theorem decimalRoundTrip : Obligations.DecimalRoundTrip := by
  intro c v b h hv
  have hdigit : ∀ k, v / 10 ^ k % 10 ≤ 9 := fun k => Nat.le_of_lt_succ (Nat.mod_lt _ (by norm_num))
  have hlane : ∀ k, k < c.lanes → lane c (pack c fun k => v / 10 ^ k % 10) k = v / 10 ^ k % 10 :=
    fun k hk => lane_pack c (fun i _ => (hdigit i).trans_lt (c.nine_lt_two_pow_w h)) hk
  have hdomain : inDomain c (pack c fun k => v / 10 ^ k % 10) = true :=
    (inDomain_iff c _).2 fun k hk => (hlane k hk).trans_le (hdigit k)
  rw [portExec_decode h, respDecode, if_pos hdomain, decimalValue, digitSum_of_digits hlane, Nat.mod_eq_of_lt hv,
    scalarResponse_eq (hv.trans_le (c.ten_pow_lanes_le h))]

theorem digit_mul_lt {d : Nat} (hd : d ≤ 9) (k : Nat) : d * 10 ^ k < 10 ^ (k + 1) := by
  rw [pow_succ, Nat.mul_comm (10 ^ k)]
  exact Nat.mul_lt_mul_of_pos_right (by omega) (by positivity)

/-- The digits of d · 10^k, for one digit d. -/
theorem digit_of_single {d : Nat} (hd : d ≤ 9) (k j : Nat) : d * 10 ^ k / 10 ^ j % 10 = if j = k then d else 0 := by
  obtain hlt | rfl | hgt := Nat.lt_trichotomy j k
  · obtain ⟨e, rfl⟩ : ∃ e, k = j + (e + 1) := ⟨k - j - 1, by omega⟩
    rw [if_neg (by omega), pow_add, Nat.mul_left_comm, Nat.mul_div_cancel_left _ (by positivity), pow_succ,
      ← Nat.mul_assoc, Nat.mul_mod_left]
  · rw [if_pos rfl, Nat.mul_div_cancel _ (by positivity), Nat.mod_eq_of_lt (by omega)]
  · have hsmall : d * 10 ^ k < 10 ^ j := (digit_mul_lt hd k).trans_le (Nat.pow_le_pow_right (by norm_num) hgt)
    rw [if_neg (by omega), Nat.div_eq_of_lt hsmall, Nat.zero_mod]

/-- Settles O52: the operand holds the digits of d · 10^k. -/
theorem singleDigitWeight : Obligations.SingleDigitWeight := by
  intro c d k b h hd hk
  have hdigits : (pack c fun j => if j = k then d else 0) = pack c fun j => d * 10 ^ k / 10 ^ j % 10 :=
    pack_congr fun j _ => (digit_of_single hd k j).symm
  have hlt : d * 10 ^ k < 10 ^ c.lanes := (digit_mul_lt hd k).trans_le (Nat.pow_le_pow_right (by norm_num) hk)
  rw [hdigits, decimalRoundTrip c _ b h hlt]
  exact toNat_ofNat_of_lt_le (hlt.trans_le (c.ten_pow_lanes_le h)) c.out_le

/-! ### The tree, pair by pair (R74) -/

/-- Where a digit lane has at least four bits, m lanes have room for any m-digit number. -/
theorem ten_pow_le {w : Nat} (hw : 4 ≤ w) (m : Nat) : 10 ^ m ≤ 2 ^ (w * m) := by
  rw [pow_mul]
  exact Nat.pow_le_pow_left ((by norm_num : 10 ≤ 2 ^ 4).trans (Nat.pow_le_pow_right two_pos hw)) m

/-- Two groups of g bits combined at a weight of at most 2^g fit 2g bits. -/
theorem pair_lt {g weight high low : Nat} (hweight : weight ≤ 2 ^ g) (hhigh : high < 2 ^ g) (hlow : low < 2 ^ g) :
    high * weight + low < 2 ^ (2 * g) :=
  calc high * weight + low < high * 2 ^ g + 2 ^ g := Nat.add_lt_add_of_le_of_lt (Nat.mul_le_mul_left _ hweight) hlow
    _ = (high + 1) * 2 ^ g := by rw [Nat.add_mul, Nat.one_mul]
    _ ≤ 2 ^ g * 2 ^ g := Nat.mul_le_mul_right _ hhigh
    _ = 2 ^ (2 * g) := by rw [← pow_add, two_mul]

theorem groupOf_lt (g x j : Nat) : groupOf g x j < 2 ^ g := Nat.mod_lt _ (by positivity)

/-- No pair of groups overflows, in any pass and for any operand. -/
theorem combinedPair_lt {c : Config} (h : c.hasDecode = true) (p x j : Nat) :
    groupOf (c.w * 2 ^ p) x (2 * j + 1) * 10 ^ 2 ^ p + groupOf (c.w * 2 ^ p) x (2 * j) <
      2 ^ (2 * (c.w * 2 ^ p)) := by
  obtain ⟨-, -, -, -, hdecode⟩ := c.legal_cases
  exact pair_lt (ten_pow_le (hdecode h).1 _) (groupOf_lt _ _ _) (groupOf_lt _ _ _)

/-- The decimal value of m lanes from lane i on. -/
def lanesValue (c : Config) (a : Word) (i m : Nat) : Nat :=
  ((List.range m).map fun t => lane c a (i + t) * 10 ^ t).sum

theorem lanesValue_one (c : Config) (a : Word) (i : Nat) : lanesValue c a i 1 = lane c a i := by
  simp [lanesValue]

/-- Two runs of lanes side by side, as R74 combines them. -/
theorem lanesValue_add (c : Config) (a : Word) (i m k : Nat) :
    lanesValue c a i (m + k) = lanesValue c a (i + m) k * 10 ^ m + lanesValue c a i m := by
  simp only [lanesValue, List.range_add, List.map_append, List.sum_append, List.map_map, Function.comp_def, pow_add,
    ← Nat.add_assoc, ← List.sum_map_mul_right]
  rw [Nat.add_comm]
  congr 3
  funext t
  ring

/-- m lanes of at least four bits hold their decimal value, even where a lane is above 9. -/
theorem lanesValue_lt {c : Config} (hw : 4 ≤ c.w) (a : Word) (i m : Nat) : lanesValue c a i m < 2 ^ (c.w * m) := by
  induction m with
  | zero => simp [lanesValue]
  | succ m ih =>
    have hlane : lane c a (i + m) + 1 ≤ 2 ^ c.w := lane_lt c a (i + m)
    rw [lanesValue_add, lanesValue_one]
    calc lane c a (i + m) * 10 ^ m + lanesValue c a i m
        < lane c a (i + m) * 2 ^ (c.w * m) + 2 ^ (c.w * m) :=
          Nat.add_lt_add_of_le_of_lt (Nat.mul_le_mul_left _ (ten_pow_le hw m)) ih
      _ = (lane c a (i + m) + 1) * 2 ^ (c.w * m) := by rw [Nat.add_mul, Nat.one_mul]
      _ ≤ 2 ^ c.w * 2 ^ (c.w * m) := Nat.mul_le_mul_right _ hlane
      _ = 2 ^ (c.w * (m + 1)) := by rw [← pow_add, Nat.mul_succ, Nat.add_comm]

/-- A group of a packed number. -/
theorem groupOf_packNat {g m i : Nat} {f : Nat → Nat} (hf : ∀ j < m, f j < 2 ^ g) (hi : i < m) :
    groupOf g (packNat g f m) i = f i := by
  rw [groupOf, Nat.mul_comm, packNat_lane hf hi]

/-- Stage p of the tree holds in its groups the decimal values of 2^p lanes each, for any operand. -/
theorem treeStage_eq_packNat {c : Config} (h : c.hasDecode = true) (a : Word) (p : Nat) :
    treeStage c a p = packNat (c.w * 2 ^ p) (fun j => lanesValue c a (j * 2 ^ p) (2 ^ p)) (c.lanes / 2 ^ p) := by
  obtain ⟨-, -, -, -, hdecode⟩ := c.legal_cases
  induction p with
  | zero =>
    have hlanes := packNat_of_lanes (w := c.w) (x := a.toNat) c.lanes
    rw [c.lanes_mul_w] at hlanes
    simp only [treeStage, lowBits_toNat c.n_le, pow_zero, Nat.mul_one, Nat.div_one, lanesValue_one]
    exact hlanes.symm
  | succ p ih =>
    have hgroup : ∀ i < c.lanes / 2 ^ p,
        groupOf (c.w * 2 ^ p) (treeStage c a p) i = lanesValue c a (i * 2 ^ p) (2 ^ p) := fun i hi => by
      rw [ih]
      exact groupOf_packNat (fun j _ => lanesValue_lt (hdecode h).1 a _ _) hi
    rw [treeStage, combinePairs, show 2 * (c.w * 2 ^ p) = c.w * 2 ^ (p + 1) by rw [pow_succ]; ring]
    refine packNat_congr fun j hj => ?_
    rw [pow_succ, ← Nat.div_div_eq_div_mul] at hj
    rw [hgroup _ (by omega), hgroup _ (by omega), pow_succ, Nat.mul_two, lanesValue_add,
      show (2 * j + 1) * 2 ^ p = j * (2 ^ p + 2 ^ p) + 2 ^ p by ring, show 2 * j * 2 ^ p = j * (2 ^ p + 2 ^ p) by ring]

/-- The tree's result is the decimal value of all lanes. -/
theorem treeStage_passCount {c : Config} (h : c.hasDecode = true) (a : Word) :
    treeStage c a (passCount c) = lanesValue c a 0 c.lanes := by
  have hpos : 0 < c.lanes := one_le_lanes c
  rw [treeStage_eq_packNat h, two_pow_passCount, Nat.div_self hpos]
  simp [packNat]

theorem lanesValue_zero_eq_sum (c : Config) (a : Word) (m : Nat) :
    lanesValue c a 0 m = ((List.range m).map fun k => lane c a k * 10 ^ k).sum := by
  simp only [lanesValue, Nat.zero_add]

/-- Settles O44: the groups hold the values of the runs of lanes they came from, and the last one is of all lanes. -/
theorem decodeTreeReachesDecimalValue : Obligations.DecodeTreeReachesDecimalValue := by
  intro c a b h
  obtain ⟨-, -, -, -, hdecode⟩ := c.legal_cases
  have hresult := treeStage_passCount h a
  refine ⟨fun p _ j _ => combinedPair_lt h p _ j, ?_, ?_, fun hdigits => ?_⟩
  · rw [hresult, lanesValue_zero_eq_sum]
  · have hlt := lanesValue_lt (hdecode h).1 a 0 c.lanes
    rwa [Nat.mul_comm, c.lanes_mul_w, ← hresult] at hlt
  · rw [portExec_decode h, respDecode, if_pos ((inDomain_iff c a).2 hdigits), decodeByTree, hresult,
      lanesValue_zero_eq_sum, ← digitSum_eq_sum]
    rfl

/-! ### The tree on the whole register (R75) -/

/-- A mask put together from a low and a high part is applied part by part. -/
theorem and_add_mul_two_pow {s low : Nat} (x high : Nat) (hlow : low < 2 ^ s) :
    x &&& (low + high * 2 ^ s) = (x &&& low) + (x / 2 ^ s &&& high) * 2 ^ s := by
  have hdiv : (x &&& (low + high * 2 ^ s)) / 2 ^ s = x / 2 ^ s &&& high := by
    rw [Nat.and_div_two_pow, Nat.add_mul_div_right _ _ (by positivity), Nat.div_eq_of_lt hlow, Nat.zero_add]
  have hmod : (x &&& (low + high * 2 ^ s)) % 2 ^ s = x &&& low := by
    rw [Nat.and_mod_two_pow, Nat.add_mul_mod_self_right, ← Nat.and_mod_two_pow,
      Nat.mod_eq_of_lt (Nat.and_le_right.trans_lt hlow)]
  rw [← hdiv, ← hmod, Nat.mod_add_div']

theorem ones_lt_pair (g : Nat) : 2 ^ g - 1 < 2 ^ (2 * g) :=
  (Nat.sub_one_lt (by positivity)).trans_le (Nat.pow_le_pow_right two_pos (by omega))

/-- `LOW` keeps the low group of every pair (R75). -/
theorem and_low_groups (g x m : Nat) :
    x &&& packNat (2 * g) (fun _ => 2 ^ g - 1) m = packNat (2 * g) (fun j => groupOf g x (2 * j)) m := by
  induction m with
  | zero => exact Nat.and_zero x
  | succ m ih =>
    have hpairs := packNat_lt m fun _ _ => ones_lt_pair g
    rw [packNat, and_add_mul_two_pow x _ hpairs, ih, Nat.and_two_pow_sub_one_eq_mod, packNat, groupOf,
      show g * (2 * m) = m * (2 * g) by ring]

/-- Shifting by one group brings the high group of every pair into the low place. -/
theorem groupOf_div (g x j : Nat) : groupOf g (x / 2 ^ g) j = groupOf g x (j + 1) := by
  rw [groupOf, groupOf, Nat.div_div_eq_div_mul, ← pow_add, show g + g * j = g * (j + 1) by ring]

/-- A packing of multiples and a packing added up. -/
theorem packNat_mul_add (w weight : Nat) (f h : Nat → Nat) (k : Nat) :
    packNat w f k * weight + packNat w h k = packNat w (fun j => f j * weight + h j) k := by
  induction k with
  | zero => simp [packNat]
  | succ k ih =>
    rw [packNat, packNat, packNat, ← ih]
    ring

/-- The pairs of a pass lie within the N bits. -/
theorem pairs_mul_le (c : Config) (p : Nat) : c.lanes / 2 ^ (p + 1) * (2 * (c.w * 2 ^ p)) ≤ c.n :=
  calc c.lanes / 2 ^ (p + 1) * (2 * (c.w * 2 ^ p)) = c.lanes / 2 ^ (p + 1) * 2 ^ (p + 1) * c.w := by rw [pow_succ]; ring
    _ ≤ c.lanes * c.w := Nat.mul_le_mul_right _ (Nat.div_mul_le_self _ _)
    _ = c.n := c.lanes_mul_w

/-- What a pass packs has N bits. -/
theorem packNat_pairs_lt {c : Config} {p : Nat} {f : Nat → Nat} (hf : ∀ j, f j < 2 ^ (2 * (c.w * 2 ^ p))) :
    packNat (2 * (c.w * 2 ^ p)) f (c.lanes / 2 ^ (p + 1)) < 2 ^ c.n :=
  (packNat_lt _ fun j _ => hf j).trans_le (Nat.pow_le_pow_right two_pos (pairs_mul_le c p))

/-- A whole-register pass is the pair-by-pair pass: masking separates the groups, and no pair's sum overflows into the
next one (R75). -/
theorem combineWhole_toNat {c : Config} (h : c.hasDecode = true) (p : Nat) (x : BitVec c.n) :
    (combineWhole c p x).toNat = combinePairs c p x.toNat := by
  have hlow : lowGroups c p < 2 ^ c.n := packNat_pairs_lt fun _ => ones_lt_pair _
  have hpairs : combinePairs c p x.toNat < 2 ^ c.n := packNat_pairs_lt (combinedPair_lt h p x.toNat)
  rw [combineWhole, BitVec.toNat_add, BitVec.toNat_mul, BitVec.toNat_and, BitVec.toNat_and, BitVec.toNat_ofNat,
    BitVec.toNat_ofNat, BitVec.toNat_ushiftRight, Nat.shiftRight_eq_div_pow, Nat.mod_eq_of_lt hlow, Nat.mul_mod_mod,
    Nat.mod_add_mod, lowGroups, and_low_groups, and_low_groups, packNat_mul_add]
  simp only [groupOf_div]
  exact Nat.mod_eq_of_lt hpairs

/-- Settles O45, by induction on the passes. -/
theorem wholeRegisterPassesFollowTheTree : Obligations.WholeRegisterPassesFollowTheTree := by
  intro c a p h _
  induction p with
  | zero => rw [wholeStage, treeStage, BitVec.toNat_setWidth, lowBits_toNat c.n_le]
  | succ p ih => rw [wholeStage, combineWhole_toNat h, ih (by omega), treeStage]

end Sys2Proof.Machine
end
